-- ==== Sys2Proof/Word.lean ====
section
/-! DEFINITION. The word types of the block: bytes, channel inputs, channels, the counter, the payload field
(00_scope.md R8, R9, R11; 30_encoding.md R55). Every value is unsigned (R11). -/

namespace Sys2Proof

/-- A byte (R11). -/
abbrev Byte := BitVec 8

/-- One channel input of ENC, `CH_IN_W = 16` bits (R8). -/
abbrev ChannelIn := BitVec 16

/-- One channel in a frame, 11 bits (R61). -/
abbrev Channel := BitVec 11

/-- The Frame-Lost Counter's value, `CNT_W = 32` bits (R9); its addition wraps. -/
abbrev Count := BitVec 32

/-- The 176-bit payload field of a frame (R55). -/
abbrev Payload := BitVec 176

/-- A wire frame: exactly 25 bytes `F0..F24` (R53). -/
abbrev Frame := Vector Byte 25

end Sys2Proof
end

