-- ==== Sys2Proof/Syntax.lean ====
section
/-! DEFINITION. The four operations of the block (30_encoding.md R62), one constructor per row of
spec/opcode_table.json, and the record that ENC takes (00_scope.md R13). -/

namespace Sys2Proof

/-- `EncRecord`, a channel record at the ENC input (R13, R71): 16 channels of 16 bits and four booleans. -/
structure EncRecord where
  ch : Vector ChannelIn 16
  digital1 : Bool
  digital2 : Bool
  frameLost : Bool
  failSafe : Bool
  deriving DecidableEq, Repr

/-- The operations (R62). A batch of PUSH is its bytes in arrival order; its length `n` is the list's (R85). -/
inductive Instr where
  | enc (r : EncRecord)
  | push (b : List Byte)
  | rdcnt
  | rst
  deriving DecidableEq, Repr

end Sys2Proof
end

