-- ==== Sys2Proof/WellFormed.lean ====
section
/-! DEFINITION. Which operations have a serialized spelling (30_encoding.md R63). -/

namespace Sys2Proof

/-- An operation that the serialized form can spell: the 16-bit length field of `OP_PUSH` limits a batch to 65535
bytes (R63, 93_implementation_defined.md I16). The fields of an ENC record all fit by their types. -/
def Instr.wf : Instr → Bool
  | .enc _ => true
  | .push b => decide (b.length < 65536)
  | .rdcnt => true
  | .rst => true

end Sys2Proof
end

