-- ==== Sys2Proof/Decode.lean ====
section
/-! DEFINITION. The serialized form of the operations (30_encoding.md R63 to R67): the decoder, total on any bytes,
the encoder, and the host's view of one opcode-table row. -/

namespace Sys2Proof

/-- Why bytes spell no operation. -/
inductive DecodeError where
  /-- The opcode is 0x00 or 0x05..0xFF (R65). -/
  | reservedOpcode
  /-- The bytes end before the operation that their opcode (and length field) announces does (R63). -/
  | incomplete
  deriving DecidableEq, Repr

/-- Byte `k` of a list, 0x00 past its end; every use below stands behind a length check. -/
def byteAt (bs : List Byte) (k : Nat) : Byte := bs.getD k 0#8

/-- The 16-bit value `{hi, lo}` (R63: every two-byte field is little-endian). -/
def fromBytes (lo hi : Byte) : BitVec 16 := hi ++ lo

/-- The low byte of a 16-bit field. -/
def lowByte (v : BitVec 16) : Byte := v.setWidth 8

/-- The high byte of a 16-bit field. -/
def highByte (v : BitVec 16) : Byte := (v >>> 8).setWidth 8

/-- Operand assembly of ENC (R66), byte 0 being the opcode: channel `i` is `{byte(2+2i), byte(1+2i)}`, the booleans
are bits 0..3 of byte 33; bits 7..4 of that byte are ignored (R65). -/
def encOperand (bs : List Byte) : EncRecord where
  ch := Vector.ofFn fun i : Fin 16 => fromBytes (byteAt bs (1 + 2 * i.val)) (byteAt bs (2 + 2 * i.val))
  digital1 := (byteAt bs 33).getLsbD 0
  digital2 := (byteAt bs 33).getLsbD 1
  frameLost := (byteAt bs 33).getLsbD 2
  failSafe := (byteAt bs 33).getLsbD 3

/-- The length field `n` of an `OP_PUSH` (R66: `n = {byte2, byte1}`). -/
def pushLength (bs : List Byte) : Nat := (fromBytes (byteAt bs 1) (byteAt bs 2)).toNat

/-- Reads one operation from the front of a serialized operation stream, and gives the rest (R63, R64). -/
def decode (bs : List Byte) : Except DecodeError (Instr × List Byte) :=
  match bs with
  | [] => .error .incomplete
  | op :: _ =>
    if op = 0x01#8 then
      if bs.length < 34 then .error .incomplete else .ok (.enc (encOperand bs), bs.drop 34)
    else if op = 0x02#8 then
      if bs.length < 3 ∨ bs.length < 3 + pushLength bs then .error .incomplete
      else .ok (.push ((bs.drop 3).take (pushLength bs)), bs.drop (3 + pushLength bs))
    else if op = 0x03#8 then .ok (.rdcnt, bs.drop 1)
    else if op = 0x04#8 then .ok (.rst, bs.drop 1)
    else .error .reservedOpcode

/-- The flags byte of an `OP_ENC`, `{0000, failSafe, frameLost, digital2, digital1}` (R63). -/
def encFlagsByte (r : EncRecord) : Byte :=
  0#4 ++ BitVec.ofBool r.failSafe ++ BitVec.ofBool r.frameLost ++ BitVec.ofBool r.digital2 ++ BitVec.ofBool r.digital1

/-- The serialized spelling of an operation (R63, R64). -/
def encode : Instr → List Byte
  | .enc r => 0x01#8 :: (r.ch.toList.flatMap fun c => [lowByte c, highByte c]) ++ [encFlagsByte r]
  | .push b => 0x02#8 :: lowByte (BitVec.ofNat 16 b.length) :: highByte (BitVec.ofNat 16 b.length) :: b
  | .rdcnt => [0x03#8]
  | .rst => [0x04#8]

/-- The length in bytes of an operation's spelling (R63: 34, `3 + n`, 1, 1). -/
def opLength : Instr → Nat
  | .enc _ => 34
  | .push b => 3 + b.length
  | .rdcnt => 1
  | .rst => 1

/-- Byte `k` of a row whose bits are `w`, numbered as spec/opcode_table.json numbers them: bits `8k+7 .. 8k`; every bit
from `nbits`, a whole number of bytes, on is 0. -/
def tableByte (nbits w k : Nat) : Byte := if 8 * k < nbits then BitVec.ofNat 8 (w >>> (8 * k)) else 0#8

/-- The bytes of that row's operation, as long as its opcode and length field say (a reserved opcode has one byte). -/
def tableBytes (nbits w : Nat) : List Byte :=
  let len :=
    if tableByte nbits w 0 = 0x01#8 then 34
    else if tableByte nbits w 0 = 0x02#8 then 3 + (fromBytes (tableByte nbits w 1) (tableByte nbits w 2)).toNat
    else 1
  (List.range len).map fun k => tableByte nbits w k

/-- What the decoder reads from one row of the opcode table. -/
def decodeTableWord (nbits w : Nat) : Option Instr :=
  match decode (tableBytes nbits w) with
  | .ok (i, _) => some i
  | .error _ => none

end Sys2Proof
end

