-- ==== Sys2Proof/Config.lean ====
section
/-! DEFINITION. What an implementation fixes. The accumulation buffer's capacity `CAP` is a parameter that the
spec leaves open, with `CAP >= FRAME_SIZE` (00_scope.md R7). -/

namespace Sys2Proof

/-- How many bytes the buffer holds beyond one frame. An uninterpreted constant: nothing says what it is, so that
whatever is proved of `Config.cap` holds for every capacity R7 allows (notes/assumptions/1.md). -/
opaque Config.spareCap : Nat

/-- `CAP` of the block that `State.reset` describes: any natural not below `FRAME_SIZE = 25` (R7). -/
def Config.cap : Nat := Config.spareCap + 25

end Sys2Proof
end

