-- ==== Sys2Proof/Machine/State.lean ====
section
/-! DEFINITION. The state of the block and of the agents around it, as plain data, and its value after reset
(10_state.md R16 to R32; 60_exceptions.md R122). -/

namespace Sys2Proof.Machine

/-- `DecRecord`, a decoded record at the PUSH output (00_scope.md R13). -/
structure DecRecord where
  ch : Vector Channel 16
  digital1 : Bool
  digital2 : Bool
  frameLost : Bool
  failSafe : Bool
  deriving DecidableEq, Repr

/-- Where the synchronizer stands between two micro-steps (41_synchronizer.md R86). -/
inductive Phase where
  /-- No PUSH is in progress: an operation boundary. -/
  | idle
  /-- In M-scan, about to test position `p`, or to finalize when no candidate is left; `last` is the end of the last
  match of this PUSH (10_state.md R27). -/
  | scan (p : Nat) (last : Option Nat)
  /-- At M-emit: the frame at `p` is decoded and counted, and `rec` waits for the consumer (R86, R99). -/
  | emit (p : Nat) (last : Option Nat) (rec : DecRecord)
  deriving DecidableEq, Repr

/-- Which agent moves in one step (60_exceptions.md R122; notes/assumptions/3.md). -/
inductive Turn where
  /-- The synchronizer performs its next micro-step. -/
  | sync
  /-- The consumer takes the record that PUSH holds at M-emit. -/
  | take
  /-- The consumer becomes ready (it will take each record at once) or stops being so. -/
  | ready (b : Bool)
  /-- An agent presents the next operation of `requests`. -/
  | request
  deriving DecidableEq, Repr

/-- The listed cells of a byte memory. Canonical form: `Memory.wf` in Machine/Ops.lean. -/
abbrev Memory := List Host.Cell

/-- Why the machine stops with a fault. The block itself raises none (60_exceptions.md R113). -/
inductive Fault where
  /-- Raised by a scan or finalize micro-step in a state whose APP exceeds CAP, where R92 would read an offset that
  does not exist (20_memory.md R34). No run reaches such a state. Safe: the model stops (notes/assumptions/11.md). -/
  | cursorBeyondCapacity
  deriving DecidableEq, Repr

/-- Why a request is refused: exactly the reasons of 60_exceptions.md R117, and the host's `notModelled`. All are
safe: the model stops where the spec gives the request no meaning. -/
inductive Refusal where
  /-- An operation without a meaning yet; no arm of `exec` raises it. Safe. -/
  | notModelled (mnemonic : String)
  /-- Raised by the step when the next operation's opcode is 0x00 or 0x05..0xFF (30_encoding.md R65). Safe. -/
  | reservedOpcode
  /-- Raised by PUSH for a batch longer than CAP (41_synchronizer.md R88). Safe. -/
  | batchTooLong
  /-- Raised by PUSH while a PUSH is in progress (41_synchronizer.md R87). Safe. -/
  | overlappingPush
  /-- Raised by RST while a PUSH is in progress (70_reset_and_hazards.md R128). Safe. -/
  | resetDuringPush
  deriving DecidableEq, Repr

/-- The block (R22, R27), its ports (R16), and the plain data that says what the agents around it do next. -/
structure State where
  /-- `CAP`, fixed when the block is built (R7, R29): no operation writes it. -/
  cap : Nat
  /-- `BUF`, offsets `0..CAP-1`; an offset not listed holds 0x00 (R23, R32). -/
  buf : Memory
  /-- `CONS`, the consumed cursor (R24). -/
  cons : Nat
  /-- `APP`, the append cursor (R24). -/
  app : Nat
  /-- `FLC`, the Frame-Lost Counter (R25). -/
  flc : Count
  /-- Whether a PUSH is in progress, and at which micro-step (R27, R86). -/
  phase : Phase
  /-- The frames that ENC put on `enc_out`, oldest first (R17). -/
  encOut : List Frame
  /-- The records on the `rec_out` stream of this engine, oldest first (R19). -/
  recOut : List DecRecord
  /-- The values that RDCNT returned on `fl_count`, oldest first (R20). -/
  flCount : List Count
  /-- The operations presented to the block and not yet read, serialized (30_encoding.md R63). -/
  requests : List Byte
  /-- The agents' turns to come; empty when none is planned (notes/assumptions/3.md). -/
  turns : List Turn
  /-- Whether the consumer of `rec_out` takes a record as soon as it is offered (R19). -/
  ready : Bool
  deriving DecidableEq, Repr

/-- The block right after it is built (R32, R129), with nothing presented to it. -/
def State.reset : State where
  cap := Config.cap
  buf := []
  cons := 0
  app := 0
  flc := 0#32
  phase := .idle
  encOut := []
  recOut := []
  flCount := []
  requests := []
  turns := []
  ready := true

end Sys2Proof.Machine
end

