-- ==== Sys2Proof/Machine/Ops.lean ====
section
/-! DEFINITION. The named operations over the accumulation buffer (20_memory.md R34 to R44; 00_scope.md R12) and over
the cursors. The block has no exception entry and no return from one (60_exceptions.md R113), so none stands here. -/

namespace Sys2Proof.Machine

/-- `FRAME_SIZE` (00_scope.md R6). -/
def frameSize : Nat := 25

/-- The canonical form: offsets strictly rising, and no listed cell holding 0x00, which is what an unlisted offset
reads as (10_state.md R32). -/
def Memory.wf : Memory → Bool
  | [] => true
  | [c] => c.2 != 0#8
  | c :: d :: m => c.2 != 0#8 && decide (c.1 < d.1) && Memory.wf (d :: m)

/-- `BUF[o]`: 0x00 where nothing is listed (R32). -/
def Memory.read : Memory → Nat → Byte
  | [], _ => 0#8
  | (a, w) :: m, o => if o = a then w else Memory.read m o

/-- `BUF[o] <- v`, keeping the canonical form. -/
def Memory.write : Memory → Nat → Byte → Memory
  | [], o, v => if v = 0#8 then [] else [(o, v)]
  | (a, w) :: m, o, v =>
    if o < a then (if v = 0#8 then (a, w) :: m else (o, v) :: (a, w) :: m)
    else if o = a then (if v = 0#8 then m else (o, v) :: m)
    else (a, w) :: Memory.write m o v

/-- `MemRead(o, n)` (R12). -/
def Memory.readList (m : Memory) (o n : Nat) : List Byte := (List.range n).map fun j => m.read (o + j)

/-- `MemWrite(o, n, L)` for the whole list `L` (R12). -/
def Memory.writeList : Memory → Nat → List Byte → Memory
  | m, _, [] => m
  | m, o, v :: vs => Memory.writeList (m.write o v) (o + 1) vs

/-- `for j in 0..k-1 (increasing): BUF[j] <- BUF[src + j]`, from `j` on (41_synchronizer.md R101). -/
def Memory.moveDown : Memory → (src j k : Nat) → Memory
  | m, _, _, 0 => m
  | m, src, j, k + 1 => Memory.moveDown (m.write j (m.read (src + j))) src (j + 1) k

/-- The buffer of a cleared or new engine: 0x00 at every offset (R32, R89). -/
def Memory.cleared : Memory := []

/-- The 25 bytes `MemRead(p, 25)` of a window (R94). -/
def Memory.window (m : Memory) (p : Nat) : Frame := Vector.ofFn fun k : Fin 25 => m.read (p + k.val)

/-- The overflow clear: every byte 0x00 and both cursors 0 (41_synchronizer.md R89). -/
def State.clearBuffer (s : State) : State := { s with buf := Memory.cleared, cons := 0, app := 0 }

/-- The overflow guard for a batch of `n` bytes: `APP + n > CAP` clears, `APP + n = CAP` does not (R89). -/
def State.overflowGuard (s : State) (n : Nat) : State := if s.app + n > s.cap then s.clearBuffer else s

/-- The append (R90). -/
def State.append (s : State) (b : List Byte) : State :=
  { s with buf := s.buf.writeList s.app b, app := s.app + b.length }

/-- Consumed-cursor advance (R100). -/
def State.advanceCons (s : State) (last : Option Nat) : State :=
  match last with
  | none => s
  | some e => { s with cons := e }

/-- Compaction (R101). -/
def State.compact (s : State) : State :=
  if s.cap - s.app < frameSize then
    { s with buf := s.buf.moveDown s.cons 0 (s.app - s.cons), app := s.app - s.cons, cons := 0 }
  else s

/-- Full-consumption reset (R102). -/
def State.resetIfConsumed (s : State) : State :=
  if s.cons = s.app then { s with cons := 0, app := 0 } else s

end Sys2Proof.Machine
end

