-- ==== Sys2Proof/Machine/Flags.lean ====
section
/-! DEFINITION. The block has no condition codes (10_state.md R28): its only flags are the four data flags of a
record, in the flags byte F23 (30_encoding.md R57), and the counter they move (41_synchronizer.md R98). -/

namespace Sys2Proof.Machine

/-- `digital1`, bit 0 of the flags byte (R57, R97). -/
def digital1Flag (f : Byte) : Bool := f.getLsbD 0

/-- `digital2`, bit 1 of the flags byte (R57, R97). -/
def digital2Flag (f : Byte) : Bool := f.getLsbD 1

/-- `frameLost`, bit 2 of the flags byte (R57, R97). -/
def frameLostFlag (f : Byte) : Bool := f.getLsbD 2

/-- `failSafe`, bit 3 of the flags byte (R57, R97). Bits 4..7 reach no flag. -/
def failSafeFlag (f : Byte) : Bool := f.getLsbD 3

/-- `FLAGS_TX`, the flags byte ENC emits whatever its input flags (40_encoder.md R79). -/
def flagsTx : Byte := 0x00#8

/-- The counter update on a match: `FLC + 1`, wrapping, when the record's `frameLost` is set (R98). -/
def countFrame (flc : Count) (rec : DecRecord) : Count := if rec.frameLost then flc + 1#32 else flc

end Sys2Proof.Machine
end

