-- ==== Sys2Proof/Machine/Operands.lean ====
section
/-! DEFINITION. The operand forms: a channel input and its mask (40_encoder.md R76), the 176-bit payload field both
ways (30_encoding.md R55, 40_encoder.md R77, 41_synchronizer.md R94), and a batch's admission by length (R88). -/

namespace Sys2Proof.Machine

/-- `c[i] := r.ch[i] & 0x7FF` (R76). -/
def maskChannel (c : ChannelIn) : Channel := c.setWidth 11

/-- `P`, the OR of `zext_176(c[i]) << (11*i)` over the 16 channels (R77, R81). -/
def packChannels (c : Vector Channel 16) : Payload :=
  (List.finRange 16).foldl (fun (P : Payload) i => P ||| ((c.get i).setWidth 176 <<< (11 * i.val))) 0#176

/-- `P[8k+7 : 8k]` (R77). -/
def payloadByte (P : Payload) (k : Nat) : Byte := P.extractLsb' (8 * k) 8

/-- `P`, the OR of `zext_176(F(1+k)) << (8*k)` over the 22 payload bytes (R55, R103). -/
def payloadOf (F : Frame) : Payload :=
  (List.finRange 22).foldl
    (fun (P : Payload) k => P ||| ((F.get ⟨1 + k.val, by omega⟩).setWidth 176 <<< (8 * k.val))) 0#176

/-- `ch[i] := (P >> (11*i)) & 0x7FF` (R94). -/
def unpackChannels (P : Payload) : Vector Channel 16 :=
  Vector.ofFn fun i : Fin 16 => (P >>> (11 * i.val)).setWidth 11

/-- A batch longer than the buffer, which R88 refuses. -/
def State.tooLong (s : State) (b : List Byte) : Bool := decide (b.length > s.cap)

end Sys2Proof.Machine
end

