-- ==== Sys2Proof/Machine/Codec.lean ====
section
/-! DEFINITION. The wire frame (30_encoding.md R53 to R61): the encoding function (40_encoder.md R81), the match test
(R59, 41_synchronizer.md R93) and the decoding function (R103). -/

namespace Sys2Proof.Machine

/-- `HEADER` (00_scope.md R6, 30_encoding.md R54). -/
def header : Byte := 0x0F#8

/-- `END_SET`, the accepted end markers (R58). -/
def endSet : List Byte := [0x00#8, 0x04#8, 0x14#8, 0x24#8, 0x34#8]

/-- `END_CANON`, the one end marker ENC transmits (R58, 40_encoder.md R80). -/
def endCanon : Byte := 0x00#8

/-- The masked channels of a record (R76). -/
def maskedChannels (r : EncRecord) : Vector Channel 16 :=
  Vector.ofFn fun i : Fin 16 => maskChannel (r.ch.get i)

/-- `encodeFrame` (R81): header, payload of the masked channels, flags byte 0x00, canonical end marker. -/
def encodeFrame (r : EncRecord) : Frame :=
  Vector.ofFn fun k : Fin 25 =>
    if k.val = 0 then header
    else if k.val ≤ 22 then payloadByte (packChannels (maskedChannels r)) (k.val - 1)
    else if k.val = 23 then flagsTx
    else endCanon

/-- `decodeFrame` (R103): it reads `F1..F23` and ignores `F0` and `F24`. -/
def decodeFrame (F : Frame) : DecRecord where
  ch := unpackChannels (payloadOf F)
  digital1 := digital1Flag (F.get 23)
  digital2 := digital2Flag (F.get 23)
  frameLost := frameLostFlag (F.get 23)
  failSafe := failSafeFlag (F.get 23)

/-- The match test on a first and a last byte (R59): the header, and a member of `END_SET`. -/
def isFrameEnds (first final : Byte) : Bool := first == header && endSet.contains final

/-- `isFrameAt(p)` (R59, R93): the sole validity test. -/
def isFrameAt (m : Memory) (p : Nat) : Bool := isFrameEnds (m.read p) (m.read (p + 24))

/-- The record decoded from the window at `p` (R94, R97). -/
def recordAt (m : Memory) (p : Nat) : DecRecord := decodeFrame (m.window p)

end Sys2Proof.Machine
end

