-- ==== Sys2Proof/Machine/Encoder.lean ====
section
/-! DEFINITION. The Frame Encoder's operation, ENC (40_encoder.md R83). -/

namespace Sys2Proof.Machine

/-- ENC: `enc_out <- encodeFrame(r)`, at any time, and nothing else (R83, R72; 20_memory.md R48). -/
def execEnc (r : EncRecord) (s : State) : Host.Outcome State Fault Refusal :=
  .next { s with encOut := s.encOut ++ [encodeFrame r] }

end Sys2Proof.Machine
end

