-- ==== Sys2Proof/Machine/Reset.lean ====
section
/-! DEFINITION. RST, which re-creates the engine (70_reset_and_hazards.md R127). -/

namespace Sys2Proof.Machine

/-- Every state element of the engine at its reset value (10_state.md R21, R32). -/
def State.recreate (s : State) : State :=
  { s.clearBuffer with flc := 0#32, recOut := [] }

/-- RST: refused while a PUSH is in progress (R128), else the engine is re-created (R127). -/
def execRst (s : State) : Host.Outcome State Fault Refusal :=
  if s.phase ≠ .idle then .refused .resetDuringPush else .next s.recreate

end Sys2Proof.Machine
end

