-- ==== Sys2Proof/Machine/Synchronizer.lean ====
section
/-! DEFINITION. The Frame Synchronizer / Decoder: PUSH by its micro-steps (41_synchronizer.md R86, R104), the
consumer's step (60_exceptions.md R118) and RDCNT (R105). -/

namespace Sys2Proof.Machine

/-- M-admit after admission (R86): the overflow guard, the append, and the scan's start at CONS (R89 to R91). -/
def State.admitBatch (s : State) (b : List Byte) : State :=
  let t := (s.overflowGuard b.length).append b
  { t with phase := .scan t.cons none }

/-- M-final (R86): cursor advance, compaction, full-consumption reset (R100 to R102); the PUSH is over. -/
def State.finalize (s : State) (last : Option Nat) : State :=
  { ((s.advanceCons last).compact).resetIfConsumed with phase := .idle }

/-- M-emit completed: the record is on `rec_out`, and the scan goes on behind the frame (R96, R99). -/
def State.deliver (s : State) (p : Nat) (rec : DecRecord) : State :=
  { s with recOut := s.recOut ++ [rec], phase := .scan (p + frameSize) (some (p + frameSize)) }

/-- M-count: the frame at `p` is decoded and counted, before it is emitted (R94, R97, R98). -/
def State.countAt (s : State) (p : Nat) (last : Option Nat) : State :=
  { s with flc := countFrame s.flc (recordAt s.buf p), phase := .emit p last (recordAt s.buf p) }

/-- One candidate position: M-count on a match, else one byte on (R92, R93, R95, R96); M-final after the last. -/
def State.scanStep (s : State) (p : Nat) (last : Option Nat) : State :=
  if p + frameSize ≤ s.app then
    if isFrameAt s.buf p then s.countAt p last else { s with phase := .scan (p + 1) last }
  else s.finalize last

/-- The synchronizer's next micro-step (R86). With no PUSH in progress there is none; at M-emit it holds, unchanged,
unless the consumer is ready (R118). -/
def microStep (s : State) : Host.Outcome State Fault Refusal :=
  match s.phase with
  | .idle => .next s
  | .emit p _ rec => if s.ready then .next (s.deliver p rec) else .next s
  | .scan p last => if s.app ≤ s.cap then .next (s.scanStep p last) else .fault .cursorBeyondCapacity

/-- The consumer's step: it takes the record held at M-emit (R118, R122); with none offered, nothing happens. -/
def State.consumerTake (s : State) : State :=
  match s.phase with
  | .emit p _ rec => s.deliver p rec
  | .idle => s
  | .scan _ _ => s

/-- The synchronizer cannot move by itself: no PUSH is in progress, or it holds at M-emit (R118). -/
def State.settled (s : State) : Bool :=
  match s.phase with
  | .idle => true
  | .scan _ _ => false
  | .emit _ _ _ => !s.ready

/-- Micro-steps until the synchronizer is settled, at most `fuel` of them. -/
def runSync : (fuel : Nat) → State → Host.Outcome State Fault Refusal
  | 0, s => .next s
  | k + 1, s =>
    if s.settled then .next s
    else
      match microStep s with
      | .next t => runSync k t
      | .fault f => .fault f
      | .refused r => .refused r

/-- The synchronizer goes as far as it can: each position costs at most one micro-step, each match one more behind
which 25 positions are skipped, and M-final one (70_reset_and_hazards.md R140), so this fuel is enough. -/
def syncRun (s : State) : Host.Outcome State Fault Refusal := runSync (2 * s.app + 3) s

/-- The admitted PUSH goes on: as far as it can where no agent's turn is listed, and otherwise the listed turns say
who moves next (notes/assumptions/3.md). -/
def continuePush (s : State) : Host.Outcome State Fault Refusal :=
  if s.turns = [] then syncRun s else .next s

/-- PUSH (R104): admission (R87, R88), M-admit, and the micro-steps that follow. -/
def execPush (b : List Byte) (s : State) : Host.Outcome State Fault Refusal :=
  if s.phase ≠ .idle then .refused .overlappingPush
  else if s.tooLong b then .refused .batchTooLong
  else if b = [] then .next s
  else continuePush (s.admitBatch b)

/-- RDCNT: `fl_count <- FLC`, at any time, and nothing else (R105; 20_memory.md R47). -/
def execRdcnt (s : State) : Host.Outcome State Fault Refusal :=
  .next { s with flCount := s.flCount ++ [s.flc] }

end Sys2Proof.Machine
end

