-- ==== Sys2Proof/Machine/Dispatch.lean ====
section
/-! DEFINITION. One arm per operation. -/

namespace Sys2Proof.Machine

def exec (i : Instr) (s : State) : Host.Outcome State Fault Refusal :=
  match i with
  | .enc r => Sys2Proof.Machine.execEnc r s
  | .push b => Sys2Proof.Machine.execPush b s
  | .rdcnt => Sys2Proof.Machine.execRdcnt s
  | .rst => Sys2Proof.Machine.execRst s

end Sys2Proof.Machine
end

