-- ==== Sys2Proof/Machine/Agents.lean ====
section
/-! DEFINITION. The agents' moves (60_exceptions.md R122): a request performed, and one listed turn
(notes/assumptions/2.md and 3.md). -/

namespace Sys2Proof.Machine

/-- The next operation of `requests` is performed. Where none stands there whole, nothing happens (R126,
notes/assumptions/9.md); a reserved opcode is refused (30_encoding.md R65). -/
def serve (s : State) : Host.Outcome State Fault Refusal :=
  match decode s.requests with
  | .ok (i, rest) => exec i { s with requests := rest }
  | .error .incomplete => .next s
  | .error .reservedOpcode => .refused .reservedOpcode

/-- The move of the agent whose turn it is. -/
def takeTurn (t : Turn) (s : State) : Host.Outcome State Fault Refusal :=
  match t with
  | .sync => microStep s
  | .take => .next s.consumerTake
  | .ready b => .next { s with ready := b }
  | .request => serve s

/-- The move where no turn is listed: a PUSH in progress goes on as far as it can, and an idle block performs the
next request. -/
def defaultMove (s : State) : Host.Outcome State Fault Refusal :=
  if s.phase = .idle then serve s else syncRun s

end Sys2Proof.Machine
end

