-- ==== Sys2Proof/Machine/Step.lean ====
section
/-! DEFINITION. One step of the machine: one agent's move (60_exceptions.md R122; notes/assumptions/2.md and 3.md). -/

namespace Sys2Proof.Machine

/-- One step. A listed turn is taken off the list and its agent moves; with none listed, `defaultMove`. -/
def step (s : State) : Host.Outcome State Fault Refusal :=
  match s.turns with
  | [] => defaultMove s
  | t :: ts => takeTurn t { s with turns := ts }

/-- The operation of an opcode-table row presented as the next request, and its turn the next one. -/
def State.withFetchWord (s : State) (nbits w : Nat) : State :=
  { s with requests := tableBytes nbits w ++ s.requests, turns := .request :: s.turns }

end Sys2Proof.Machine
end

