-- ==== Sys2Proof/Machine/Transaction.lean ====
section
/-! DEFINITION. PUSH as one transaction (41_synchronizer.md R104, R106), said without micro-steps, and what an observer
of the block sees (10_state.md R30): the claims compare the machine with these. -/

namespace Sys2Proof.Machine

/-- The greedy scan (R106): from `q` on, in increasing order, the positions whose window ends by `stop` and matches,
skipping the 24 bytes behind each match. `fuel` bounds the positions visited. -/
def greedyFrom (test : Nat → Bool) (stop : Nat) : (fuel q : Nat) → List Nat
  | 0, _ => []
  | k + 1, q =>
    if q + frameSize ≤ stop then
      if test q then q :: greedyFrom test stop k (q + frameSize) else greedyFrom test stop k (q + 1)
    else []

/-- The positions that a scan of the buffer from `CONS` matches. -/
def State.matchedPositions (s : State) : List Nat := greedyFrom (isFrameAt s.buf) s.app (s.app + 1) s.cons

/-- The records decoded at those positions, in increasing order (R99). -/
def State.matchedRecords (s : State) : List DecRecord := s.matchedPositions.map (recordAt s.buf)

/-- How many of the records have `frameLost` set (R107). -/
def countLost (recs : List DecRecord) : Nat := recs.countP DecRecord.frameLost

/-- The buffer, cursors and counter with the batch admitted: the overflow guard (R89), then the append (R90). -/
def State.afterAppend (s : State) (b : List Byte) : State := (s.overflowGuard b.length).append b

/-- PUSH of a batch that is admitted, as one transaction (R104): guard and append, every match decoded, counted and
emitted in order, then CONS advanced to the end of the last match, compaction, and the full-consumption reset. -/
def pushTransaction (b : List Byte) (s : State) : State :=
  let t := s.afterAppend b
  let u := { t with flc := t.flc + BitVec.ofNat 32 (countLost t.matchedRecords), recOut := t.recOut ++ t.matchedRecords }
  ((u.advanceCons (t.matchedPositions.getLast?.map fun q => q + frameSize)).compact).resetIfConsumed

/-- The block stands at an operation boundary, its consumer takes every record as soon as it is offered, and no
agent's turn is listed: a PUSH runs to its end in one step. -/
def State.Quiet (s : State) : Prop := s.phase = .idle ∧ s.ready = true ∧ s.turns = []

/-- The buffer holds no unconsumed byte, as after RST and after full consumption (R102, R129). -/
def State.Empty (s : State) : Prop := s.cons = 0 ∧ s.app = 0

/-- A frame that the match test accepts (R59). -/
def ValidFrame (F : Frame) : Prop := isFrameEnds (F.get 0) (F.get 24) = true

/-- The bytes of frames sent one behind the other. -/
def streamOf (Fs : List Frame) : List Byte := Fs.flatMap fun F => F.toList

/-- The state with one more frame on `enc_out`. -/
def State.withEncOut (s : State) (F : Frame) : State := { s with encOut := s.encOut ++ [F] }

/-- The state with one more value on `fl_count`. -/
def State.withFlCount (s : State) (c : Count) : State := { s with flCount := s.flCount ++ [c] }

/-- The operations that other agents may perform between two micro-steps of a PUSH: ENC and RDCNT (R86). -/
def mayInterleave : Instr → Bool
  | .enc _ => true
  | .push _ => false
  | .rdcnt => true
  | .rst => false

/-- An outcome's next state changed by `f`. -/
def mapNext (f : State → State) : Host.Outcome State Fault Refusal → Host.Outcome State Fault Refusal
  | .next s => .next (f s)
  | .fault e => .fault e
  | .refused r => .refused r

/-- Whether the overflow guard fires for a batch of `n` bytes (R89). -/
def State.overflows (s : State) (n : Nat) : Bool := decide (s.app + n > s.cap)

/-- The greedy scan of a byte stream `S` (R106). -/
def greedyStream (S : List Byte) : List Nat :=
  greedyFrom (fun q => isFrameEnds (S.getD q 0#8) (S.getD (q + 24) 0#8)) S.length (S.length + 1) 0

/-- The window of 25 bytes at `q` of a stream. -/
def streamWindow (S : List Byte) (q : Nat) : Frame := Vector.ofFn fun k : Fin 25 => S.getD (q + k.val) 0#8

/-- The records of a byte stream: `decodeFrame(S[q..q+24])` for `q` in `greedy(S)` (R106). -/
def streamRecords (S : List Byte) : List DecRecord := (greedyStream S).map fun q => decodeFrame (streamWindow S q)

/-- Batches pushed one after the other, none of them firing the overflow guard; `none` where one does, is refused, or
does not run to its end (R106). -/
def pushAllWithin : List (List Byte) → State → Option State
  | [], s => some s
  | b :: bs, s =>
    if s.overflows b.length then none
    else
      match exec (.push b) s with
      | .next t => pushAllWithin bs t
      | .fault _ => none
      | .refused _ => none

/-- FLC after the first `k` of the records of a PUSH that starts at `c` (20_memory.md R47). -/
def countAfter (c : Count) (recs : List DecRecord) (k : Nat) : Count := c + BitVec.ofNat 32 (countLost (recs.take k))

/-- A list of agents' turns taken one after the other. -/
def takeTurns : List Turn → State → Host.Outcome State Fault Refusal
  | [], s => .next s
  | t :: ts, s =>
    match takeTurn t s with
    | .next u => takeTurns ts u
    | .fault f => .fault f
    | .refused r => .refused r

/-- The unconsumed bytes `BUF[CONS..APP-1]` (R30). -/
def State.retained (s : State) : List Byte := s.buf.readList s.cons (s.app - s.cons)

/-- Two states that differ at most in the stale bytes outside `[CONS, APP)` (10_state.md R23, R31). -/
def SameButStale (s t : State) : Prop :=
  t = { s with buf := t.buf } ∧ ∀ o, s.cons ≤ o → o < s.app → t.buf.read o = s.buf.read o

/-- Two outcomes that no observer tells apart by stale bytes. -/
def SameOutcomeButStale : Host.Outcome State Fault Refusal → Host.Outcome State Fault Refusal → Prop
  | .next s, .next t => SameButStale s t
  | .fault f, .fault g => f = g
  | .refused r, .refused q => r = q
  | .next _, .fault _ => False
  | .next _, .refused _ => False
  | .fault _, .next _ => False
  | .fault _, .refused _ => False
  | .refused _, .next _ => False
  | .refused _, .fault _ => False

end Sys2Proof.Machine
end

