-- ==== Sys2Proof/Safety.lean ====
section
/-! DEFINITION. What holds of the block at every step boundary: the invariants of 10_state.md R24 and
41_synchronizer.md R108, with what holds in the middle of a PUSH. -/

namespace Sys2Proof.Machine

/-- No position from `lo` up to, not including, `hi` is a match. -/
def NoMatchBetween (m : Memory) (lo hi : Nat) : Prop := ∀ q, lo ≤ q → q < hi → isFrameAt m q = false

/-- Where a PUSH's bytes start to be unconsumed once it finalizes: the end of its last match, or CONS (R100). -/
def State.consumedBy (s : State) (last : Option Nat) : Nat := last.getD s.cons

/-- At an operation boundary: R108 (b), (c) and (d). In a PUSH: the scan stands inside the buffered bytes, and every
position it passed since the last match is no match; at M-emit, the record is the one decoded at its position. -/
def State.PhaseInv (s : State) : Prop :=
  match s.phase with
  | .idle =>
    NoMatchBetween s.buf s.cons (s.app + 1 - frameSize) ∧ (s.cons = 0 ∨ s.cap - s.app ≥ frameSize) ∧
      (s.cons = s.app → s.cons = 0)
  | .scan p last =>
    s.cons ≤ s.consumedBy last ∧ s.consumedBy last ≤ p ∧ p ≤ s.app ∧ NoMatchBetween s.buf (s.consumedBy last) p
  | .emit p last rec =>
    s.cons ≤ s.consumedBy last ∧ s.consumedBy last ≤ p ∧ p + frameSize ≤ s.app ∧ isFrameAt s.buf p = true ∧
      rec = recordAt s.buf p

/-- The invariant of the block: memory in canonical form and inside the offsets that exist (20_memory.md R34),
`FRAME_SIZE <= CAP` (00_scope.md R7), `CONS <= APP <= CAP` (R24), and `PhaseInv`. -/
structure BlockInv (s : State) : Prop where
  bufWf : s.buf.wf = true
  bufInside : ∀ c ∈ s.buf, c.1 < s.cap
  capHoldsFrame : frameSize ≤ s.cap
  consLeApp : s.cons ≤ s.app
  appLeCap : s.app ≤ s.cap
  phaseInv : s.PhaseInv

end Sys2Proof.Machine
end

