-- ==== Sys2Proof/Certificates/Slice0/Obligations.lean ====
section
/-! DEFINITION. The statements for the provers. Each docstring names the rule of spec/ it formalises. -/

open Sys2Proof Sys2Proof.Machine

/-! ## The serialized form -/

/-- R63, R64, R66: decoding the spelling of any operation that can be spelled gives it back, with the rest untouched. -/
def Obligations.DecodeOfEncode : Prop :=
  ∀ (i : Instr) (rest : List Byte), i.wf = true → decode (encode i ++ rest) = .ok (i, rest)

/-- R63 to R66, the other direction: bytes that decode are the operation's spelling, but for bits 7..4 of an ENC's
flags byte, which R65 says are ignored. -/
def Obligations.DecodedBytesAreTheSpelling : Prop :=
  ∀ (bs rest : List Byte) (i : Instr), decode bs = .ok (i, rest) →
    i.wf = true ∧
    match i with
    | .enc r =>
      34 ≤ bs.length ∧ bs.drop 34 = rest ∧ bs.take 33 = (encode (.enc r)).take 33 ∧
        (byteAt bs 33).setWidth 4 = (encFlagsByte r).setWidth 4
    | .push b => bs = encode (.push b) ++ rest
    | .rdcnt => bs = encode .rdcnt ++ rest
    | .rst => bs = encode .rst ++ rest

/-- R65: a reserved opcode spells no operation, whatever follows it, and the step that meets it refuses it (when a
step meets it: notes/assumptions/3.md). -/
def Obligations.ReservedOpcodeIsRefused : Prop :=
  ∀ (op : Byte) (rest : List Byte), op = 0x00#8 ∨ 0x05#8 ≤ op →
    decode (op :: rest) = .error .reservedOpcode ∧
    ∀ s : State, s.requests = op :: rest →
      (s.turns = [] ∧ s.phase = .idle) ∨ s.turns.head? = some .request →
      step s = .refused .reservedOpcode

/-- R63, R64, R66: four words written out from the encoding table decode to their operations (the ENC word has
channel 0 = 0x1234, channel 15 = 0xBEEF, digital1 and failSafe); and a PUSH whose length field, low byte first, says
256, with no batch byte behind it, decodes to no operation but to `incomplete`. That the decoder answers so for a
partial operation is the model's choice (notes/assumptions/9.md). -/
def Obligations.SampleWordsDecode : Prop :=
  (∃ r : EncRecord,
    decode ([0x01, 0x34, 0x12] ++ List.replicate 28 0x00#8 ++ [0xEF, 0xBE, 0x09]) = .ok (.enc r, []) ∧
      r.ch.toList = 0x1234#16 :: List.replicate 14 0x0000#16 ++ [0xBEEF#16] ∧ r.digital1 = true ∧
      r.digital2 = false ∧ r.frameLost = false ∧ r.failSafe = true) ∧
  decode [0x02, 0x03, 0x00, 0xAA, 0xBB, 0xCC, 0x03] = .ok (.push [0xAA, 0xBB, 0xCC], [0x03]) ∧
  decode [0x02, 0x00, 0x01] = .error .incomplete ∧
  decode [0x03, 0x04] = .ok (.rdcnt, [0x04]) ∧
  decode [0x04] = .ok (.rst, [])

/-- R63: an opcode-table word placed with `withFetchWord` is what the next step runs, in every state. How a request is
placed and given its turn is the model's choice (notes/assumptions/2.md and 3.md). -/
def Obligations.TableWordRunsNext : Prop :=
  ∀ (s : State) (nbits w : Nat) (i : Instr), decodeTableWord nbits w = some i →
    step (s.withFetchWord nbits w) = exec i s

/-! ## The wire frame -/

/-- R78: `F0 := 0x0F`. R79: `F23 := 0x00` always. R80: `F24 := 0x00`. -/
def Obligations.EncodedFrameFixedBytes : Prop :=
  ∀ r : EncRecord, (encodeFrame r)[0] = 0x0F#8 ∧ (encodeFrame r)[23] = 0x00#8 ∧ (encodeFrame r)[24] = 0x00#8

/-- R37, R77: bit `j` of channel `i` stands at bit `11i+j` of the payload, which is bit `(11i+j) mod 8` of byte
`F(1 + (11i+j)/8)`. -/
def Obligations.EncodedPayloadBits : Prop :=
  ∀ (r : EncRecord) (i : Fin 16) (j : Nat) (hj : j < 11),
    ((encodeFrame r)[1 + (11 * i.val + j) / 8]'(by have := i.isLt; omega)).getLsbD ((11 * i.val + j) % 8) =
      (r.ch.get i).getLsbD j

/-- R37, R94: the decoder reads bit `j` of channel `i` from that same bit of the frame, whatever the frame. -/
def Obligations.DecodedPayloadBits : Prop :=
  ∀ (F : Frame) (i : Fin 16) (j : Nat) (hj : j < 11),
    ((decodeFrame F).ch.get i).getLsbD j =
      (F[1 + (11 * i.val + j) / 8]'(by have := i.isLt; omega)).getLsbD ((11 * i.val + j) % 8)

/-- R97 and R103: the four flags are bits 0..3 of `F23`; and the record depends on `F1..F22` and those four bits
alone: `F0`, `F24` and bits 7..4 of `F23` are ignored. -/
def Obligations.DecodedFlagsAndIgnoredBits : Prop :=
  (∀ F : Frame, (decodeFrame F).digital1 = F[23].getLsbD 0 ∧ (decodeFrame F).digital2 = F[23].getLsbD 1 ∧
    (decodeFrame F).frameLost = F[23].getLsbD 2 ∧ (decodeFrame F).failSafe = F[23].getLsbD 3) ∧
  ∀ F G : Frame, (∀ k : Fin 25, 1 ≤ k.val → k.val ≤ 22 → F.get k = G.get k) →
    (F.get 23).setWidth 4 = (G.get 23).setWidth 4 → decodeFrame F = decodeFrame G

/-- R82 (b), R103: decoding an ENC frame gives every channel masked to 11 bits and all four flags false. -/
def Obligations.DecodeOfEncodedFrame : Prop :=
  ∀ r : EncRecord,
    (∀ i : Fin 16, ((decodeFrame (encodeFrame r)).ch.get i).toNat = (r.ch.get i).toNat % 2048) ∧
    (decodeFrame (encodeFrame r)).digital1 = false ∧ (decodeFrame (encodeFrame r)).digital2 = false ∧
    (decodeFrame (encodeFrame r)).frameLost = false ∧ (decodeFrame (encodeFrame r)).failSafe = false

/-- R73, R76, R82 (c): two ENC records give equal frames exactly when their channels agree in the low 11 bits,
whatever their flags. -/
def Obligations.FrameIsMaskedChannels : Prop :=
  ∀ r q : EncRecord,
    encodeFrame r = encodeFrame q ↔ ∀ i : Fin 16, r.ch.get i &&& 0x07FF#16 = q.ch.get i &&& 0x07FF#16

/-- R60 (c), R82 (d): every payload is some record's payload. -/
def Obligations.EveryPayloadIsEncoded : Prop :=
  ∀ P : Vector Byte 22, ∃ r : EncRecord, ∀ k : Fin 22, (encodeFrame r)[1 + k.val] = P[k.val]

/-- R59, R93, R58: a position matches exactly when its byte is 0x0F and the byte 24 positions later is an accepted end
marker; and every frame from ENC passes (R82 (a)). -/
def Obligations.MatchTestIsHeaderAndEndMarker : Prop :=
  (∀ (m : Memory) (p : Nat), isFrameAt m p = true ↔
    m.read p = 0x0F#8 ∧ (m.read (p + 24) = 0x00#8 ∨ m.read (p + 24) = 0x04#8 ∨ m.read (p + 24) = 0x14#8 ∨
      m.read (p + 24) = 0x24#8 ∨ m.read (p + 24) = 0x34#8)) ∧
  ∀ r : EncRecord, ValidFrame (encodeFrame r)

/-! ## ENC, RDCNT, RST -/

/-- R83, R72, R74: in every state ENC completes, puts the frame on `enc_out` as one unit of 25 bytes, and changes
nothing else. That `enc_out` is kept as a list of results is the model's choice (notes/assumptions/6.md), so this
is derived. -/
def Obligations.EncCompletes : Prop :=
  ∀ (r : EncRecord) (s : State), exec (.enc r) s = .next { s with encOut := s.encOut ++ [encodeFrame r] }

/-- R105, R20: in every state RDCNT completes, returns the value of FLC on `fl_count`, and changes nothing else. That
`fl_count` is kept as a list of results is the model's choice (notes/assumptions/6.md), so this is derived. -/
def Obligations.RdcntCompletes : Prop :=
  ∀ s : State, exec .rdcnt s = .next { s with flCount := s.flCount ++ [s.flc] }

/-- R127, R32: with no PUSH in progress RST completes: every byte of BUF reads 0x00, both cursors and FLC are 0,
`rec_out` is empty, and nothing else changes. That RST keeps the results on `enc_out` and `fl_count` and empties
`rec_out` alone is the model's reading (notes/assumptions/6.md), so this is derived. -/
def Obligations.RstCompletes : Prop :=
  ∀ s : State, s.phase = .idle → ∃ t, exec .rst s = .next t ∧ (∀ o, t.buf.read o = 0x00#8) ∧
    t = { s with buf := t.buf, cons := 0, app := 0, flc := 0#32, recOut := [] }

/-- R128: RST while a PUSH is in progress is refused. -/
def Obligations.RstRefusedDuringPush : Prop :=
  ∀ s : State, s.phase ≠ .idle → exec .rst s = .refused .resetDuringPush

/-- R32, R129: the state the block starts in. The last clause is R7's bound on the parameter CAP. -/
def Obligations.ResetState : Prop :=
  State.reset.cons = 0 ∧ State.reset.app = 0 ∧ State.reset.flc = 0#32 ∧ (∀ o, State.reset.buf.read o = 0x00#8) ∧
    State.reset.recOut = [] ∧ State.reset.phase = .idle ∧ exec .rst State.reset = .next State.reset ∧
    25 ≤ State.reset.cap

/-- R48, R86: what another operation does is the same with one more frame on `enc_out` before it, and that frame stays
there; the same holds of one more value on `fl_count`; and both hold of every micro-step of a PUSH, of a run of them, and
of the consumer's moves, so that an ENC or RDCNT may stand between any two of these. Which value RDCNT reads there is
ConcurrentReadSeesAPrefix. The ports as lists and the moves as turns are the model's choice (notes/assumptions/3.md,
6.md and 19.md). -/
def Obligations.EncCommutes : Prop :=
  (∀ (i : Instr) (F : Frame) (s : State), (∀ r, i ≠ .enc r) →
    exec i (s.withEncOut F) = mapNext (fun t => t.withEncOut F) (exec i s)) ∧
  (∀ (i : Instr) (c : Count) (s : State), i ≠ .rdcnt →
    exec i (s.withFlCount c) = mapNext (fun t => t.withFlCount c) (exec i s)) ∧
  (∀ (x : Turn) (F : Frame) (c : Count) (s : State), x ≠ .request →
    takeTurn x (s.withEncOut F) = mapNext (fun t => t.withEncOut F) (takeTurn x s) ∧
    takeTurn x (s.withFlCount c) = mapNext (fun t => t.withFlCount c) (takeTurn x s)) ∧
  ∀ (F : Frame) (c : Count) (s : State),
    syncRun (s.withEncOut F) = mapNext (fun t => t.withEncOut F) (syncRun s) ∧
    syncRun (s.withFlCount c) = mapNext (fun t => t.withFlCount c) (syncRun s)

/-! ## PUSH: admission -/

/-- R87: a PUSH while a PUSH is in progress is refused, whatever its batch. -/
def Obligations.PushRefusedDuringPush : Prop :=
  ∀ (b : List Byte) (s : State), s.phase ≠ .idle → exec (.push b) s = .refused .overlappingPush

/-- R88: `n > CAP` is refused, `n = 0` changes nothing, and `1 <= n <= CAP` proceeds. -/
def Obligations.PushAdmissionByLength : Prop :=
  ∀ (b : List Byte) (s : State), s.phase = .idle →
    (b.length > s.cap → exec (.push b) s = .refused .batchTooLong) ∧
    (b.length = 0 → exec (.push b) s = .next s) ∧
    (1 ≤ b.length → b.length ≤ s.cap → ∃ t, exec (.push b) s = .next t)

/-- R89: the guard fires exactly when `APP + n > CAP`; then every byte reads 0x00 and both cursors are 0, and nothing
else, FLC and `rec_out` among it, changes. -/
def Obligations.OverflowGuard : Prop :=
  ∀ (s : State) (n : Nat),
    (s.app + n > s.cap → (∀ o, (s.overflowGuard n).buf.read o = 0x00#8) ∧
      s.overflowGuard n = { s with buf := (s.overflowGuard n).buf, cons := 0, app := 0 }) ∧
    (s.app + n ≤ s.cap → s.overflowGuard n = s)

/-- R89, R106: a PUSH that fires the guard does what it does from the cleared buffer: the stream restarts at the batch
that triggered the clear. -/
def Obligations.OverflowRestartsTheStream : Prop :=
  ∀ (b : List Byte) (s : State), s.phase = .idle → 1 ≤ b.length → b.length ≤ s.cap → s.app + b.length > s.cap →
    exec (.push b) s = exec (.push b) { s with buf := [], cons := 0, app := 0 }

/-- R90, R36: after guard and append, batch byte `j` stands at offset `APP + j` (APP as the guard left it), every other
offset is as the guard left it, and `APP <= CAP`; a batch that fired the guard is itself kept, from offset 0 on, with
the scan's start before it. -/
def Obligations.AppendPlacesTheBatch : Prop :=
  ∀ (b : List Byte) (s : State), s.buf.wf = true → b.length ≤ s.cap →
    (s.afterAppend b).app = (s.overflowGuard b.length).app + b.length ∧ (s.afterAppend b).app ≤ s.cap ∧
    (s.afterAppend b).cons = (s.overflowGuard b.length).cons ∧
    (∀ o, (s.afterAppend b).buf.read o =
      if (s.overflowGuard b.length).app ≤ o ∧ o < (s.overflowGuard b.length).app + b.length then
        b.getD (o - (s.overflowGuard b.length).app) 0x00#8
      else (s.overflowGuard b.length).buf.read o) ∧
    (s.app + b.length > s.cap →
      (s.afterAppend b).cons = 0 ∧ (s.afterAppend b).app = b.length ∧
        ∀ j, j < b.length → (s.afterAppend b).buf.read j = b.getD j 0x00#8)

/-! ## PUSH: the micro-steps -/

/-- R86: where agents' turns are listed, PUSH performs M-admit, and the scan is to start at CONS with no match yet.
The list of turns is the model's choice (notes/assumptions/3.md). -/
def Obligations.PushStartsUnderListedTurns : Prop :=
  ∀ (b : List Byte) (s : State), s.phase = .idle → s.turns ≠ [] → 1 ≤ b.length → b.length ≤ s.cap →
    exec (.push b) s = .next { s.afterAppend b with phase := .scan (s.afterAppend b).cons none }

/-- R95, R96: a candidate that is no match moves the scan one byte on, and that is all. -/
def Obligations.MismatchMovesOneByte : Prop :=
  ∀ (s : State) (p : Nat) (last : Option Nat), s.phase = .scan p last → s.app ≤ s.cap → p + 25 ≤ s.app →
    isFrameAt s.buf p = false → microStep s = .next { s with phase := .scan (p + 1) last }

/-- R94, R97, R98: a candidate that matches is decoded and counted, FLC by one modulo `2^32` exactly when `frameLost`
is set, and the record waits at M-emit: the count comes before the emission. -/
def Obligations.MatchCountsBeforeEmission : Prop :=
  ∀ (s : State) (p : Nat) (last : Option Nat), s.phase = .scan p last → s.app ≤ s.cap → p + 25 ≤ s.app →
    isFrameAt s.buf p = true →
    microStep s = .next { s with
      flc := if (s.buf.read (p + 23)).getLsbD 2 then s.flc + 1#32 else s.flc
      phase := .emit p last (decodeFrame (s.buf.window p)) }

/-- R96, R99: a ready consumer gets the record, and the scan goes on 25 bytes later, behind the matched frame. -/
def Obligations.ReadyConsumerGetsTheRecord : Prop :=
  ∀ (s : State) (p : Nat) (last : Option Nat) (rec : DecRecord), s.phase = .emit p last rec → s.ready = true →
    microStep s = .next { s with recOut := s.recOut ++ [rec], phase := .scan (p + 25) (some (p + 25)) }

/-- R118: at M-emit with a consumer that is not ready, the synchronizer does not move, by one micro-step or by as many
as it could do; the consumer's step delivers the record. The field `ready` is the model's choice
(notes/assumptions/4.md), and so is a hold that answers the same state (notes/assumptions/5.md). -/
def Obligations.HoldAtEmission : Prop :=
  ∀ (s : State) (p : Nat) (last : Option Nat) (rec : DecRecord), s.phase = .emit p last rec → s.ready = false →
    microStep s = .next s ∧ syncRun s = .next s ∧
    takeTurn .take s = .next { s with recOut := s.recOut ++ [rec], phase := .scan (p + 25) (some (p + 25)) }

/-- R118: nothing but the consumer's step lifts the hold: any other step leaves the PUSH at the same M-emit.
The turns and the field `ready` are the model's choice (notes/assumptions/3.md and 4.md). -/
def Obligations.OnlyTheConsumerLiftsTheHold : Prop :=
  ∀ (s t : State) (p : Nat) (last : Option Nat) (rec : DecRecord), s.phase = .emit p last rec → s.ready = false →
    s.turns.head? ≠ some .take → step s = .next t → t.phase = .emit p last rec ∧ t.recOut = s.recOut

/-- R100: CONS moves to the end of the last match, or stays. R102: cursors that are equal are both set to 0; the bytes
are left; compaction and this reset give the same cursors in either order. -/
def Obligations.CursorsAfterTheScan : Prop :=
  ∀ s : State, s.advanceCons none = s ∧ (∀ e, s.advanceCons (some e) = { s with cons := e }) ∧
    (s.cons = s.app → s.resetIfConsumed = { s with cons := 0, app := 0 }) ∧
    (s.cons ≠ s.app → s.resetIfConsumed = s) ∧
    (25 ≤ s.cap → s.compact.resetIfConsumed.cons = s.resetIfConsumed.compact.cons ∧
      s.compact.resetIfConsumed.app = s.resetIfConsumed.compact.app)

/-- R101: compaction runs exactly when the free space is below one frame; it moves the unconsumed bytes to offset 0 in
order, sets `APP` to their number and `CONS` to 0, leaves every byte behind them, and changes nothing when
`CONS = 0`. -/
def Obligations.CompactionMovesTheTail : Prop :=
  ∀ s : State, s.buf.wf = true →
    (25 ≤ s.cap - s.app → s.compact = s) ∧
    (s.cons = 0 → s.compact = s) ∧
    (s.cap - s.app < 25 → s.compact.app = s.app - s.cons ∧ s.compact.cons = 0 ∧
      s.compact = { s with buf := s.compact.buf, cons := 0, app := s.app - s.cons } ∧
      ∀ o, s.compact.buf.read o = if o < s.app - s.cons then s.buf.read (s.cons + o) else s.buf.read o)

/-! ## PUSH: the transaction -/

/-- R104: where the consumer is ready and no other agent's turn is listed, PUSH of an admitted batch completes, and its
micro-steps do together what the transaction does: every match of the greedy scan decoded, counted and emitted in order,
then the cursors and the buffer finalized. `Quiet` is said in the model's own fields (notes/assumptions/3.md and
4.md). A consumer that is not ready is PushHoldsAtItsFirstMatch, and listed turns are PushStartsUnderListedTurns. -/
def Obligations.PushCompletes : Prop :=
  ∀ (b : List Byte) (s : State), s.Quiet → 1 ≤ b.length → b.length ≤ s.cap →
    exec (.push b) s = .next (pushTransaction b s)

/-- R86, R118: with a consumer that is not ready, PUSH holds at its first match, counted and not yet emitted, or
completes where nothing matches. The fields `ready` and `turns` are the model's choice (notes/assumptions/3.md and
4.md). -/
def Obligations.PushHoldsAtItsFirstMatch : Prop :=
  ∀ (b : List Byte) (s : State), s.phase = .idle → s.ready = false → s.turns = [] → 1 ≤ b.length →
    b.length ≤ s.cap →
    exec (.push b) s = .next (
      match (s.afterAppend b).matchedPositions with
      | [] => pushTransaction b s
      | q :: _ => (s.afterAppend b).countAt q none)

/-- R104: a PUSH that is performed leaves CAP, `enc_out` and `fl_count` as they were, in every state. It leaves the
fields `requests`, `turns` and `ready` as they were too, which are the model's own and no words of R104
(notes/assumptions/2.md, 3.md and 4.md). -/
def Obligations.PushFrame : Prop :=
  ∀ (b : List Byte) (s t : State), exec (.push b) s = .next t →
    t.cap = s.cap ∧ t.encOut = s.encOut ∧ t.flCount = s.flCount ∧ t.requests = s.requests ∧ t.turns = s.turns ∧
      t.ready = s.ready

/-- R90, R101: every byte of BUF after a completed PUSH: with `u` the state after guard and append and `e` the end of
the last match (CONS where nothing matched), the bytes below `APP - e` are those from `e` on if compaction runs, and
every other byte is as the append left it. -/
def Obligations.PushMemory : Prop :=
  ∀ (b : List Byte) (s : State), s.buf.wf = true → s.Quiet → 1 ≤ b.length → b.length ≤ s.cap →
    ∃ t, exec (.push b) s = .next t ∧
      ∀ o, t.buf.read o =
        if s.cap - (s.afterAppend b).app < 25 ∧
            o < (s.afterAppend b).app -
              (s.afterAppend b).consumedBy ((s.afterAppend b).matchedPositions.getLast?.map fun q => q + 25) then
          (s.afterAppend b).buf.read
            ((s.afterAppend b).consumedBy ((s.afterAppend b).matchedPositions.getLast?.map fun q => q + 25) + o)
        else (s.afterAppend b).buf.read o

/-- R107: one PUSH emits at most `floor((APP' - CONS) / 25)` records, and FLC grows by the number of them with
`frameLost` set, modulo `2^32`. -/
def Obligations.PushCountBounds : Prop :=
  ∀ (b : List Byte) (s : State), s.Quiet → 1 ≤ b.length → b.length ≤ s.cap →
    ∃ t recs, exec (.push b) s = .next t ∧ t.recOut = s.recOut ++ recs ∧
      recs.length ≤ ((s.afterAppend b).app - (s.afterAppend b).cons) / 25 ∧
      t.flc = s.flc + BitVec.ofNat 32 (countLost recs)

/-- R106: batches pushed into an empty buffer without an overflow clear emit exactly the records of the greedy scan of
their concatenation, in order, count its frame-lost records, and retain exactly the bytes behind its last match:
where the stream is cut makes no difference. -/
def Obligations.BatchBoundariesDoNotMatter : Prop :=
  ∀ (bs : List (List Byte)) (s t : State), BlockInv s → s.Quiet → s.Empty → pushAllWithin bs s = some t →
    t.recOut = s.recOut ++ streamRecords bs.flatten ∧
    t.flc = s.flc + BitVec.ofNat 32 (countLost (streamRecords bs.flatten)) ∧
    t.retained = bs.flatten.drop (((greedyStream bs.flatten).getLast?.map fun q => q + 25).getD 0)

/-- R109: with batches of at most 25 bytes, the guard fires only where `CONS = 0` and more than `CAP - 25` bytes are
retained. -/
def Obligations.GuardFiresOnlyOnRetainedBytes : Prop :=
  ∀ (s : State) (n : Nat), BlockInv s → s.phase = .idle → n ≤ 25 → s.app + n > s.cap → s.cons = 0 ∧ s.app > s.cap - 25

/-- R109, R134: valid frames one behind the other, cut into batches of at most 25 bytes anywhere, never fire the guard
where `CAP >= 50`, and never leave 25 or more bytes retained. -/
def Obligations.CleanStreamNeverOverflows : Prop :=
  ∀ (Fs : List Frame) (bs : List (List Byte)) (s : State), BlockInv s → s.Quiet → s.Empty → 50 ≤ s.cap →
    (∀ F ∈ Fs, ValidFrame F) → (∀ b ∈ bs, b.length ≤ 25) → bs.flatten <+: streamOf Fs →
    ∃ t, pushAllWithin bs s = some t ∧ t.retained.length < 25

/-- R110: one garbage byte 0x0F in front of an ENC frame matches falsely: PUSH emits one bogus record, decoded from the
26 bytes' first 25, and retains the frame's last byte, so the real frame is not emitted. -/
def Obligations.FalseSynchronisation : Prop :=
  ∀ (r : EncRecord) (s : State), BlockInv s → s.Quiet → s.Empty → 26 ≤ s.cap →
    ∃ t, exec (.push (0x0F#8 :: (encodeFrame r).toList)) s = .next t ∧
      t.recOut = s.recOut ++ [decodeFrame (streamWindow (0x0F#8 :: (encodeFrame r).toList) 0)] ∧
      t.retained = [0x00#8]

/-- 90_conflicts.md C4: garbage without a byte 0x0F in front of a valid frame is skipped, and exactly that frame is
decoded and everything consumed. -/
def Obligations.CleanGarbageIsSkipped : Prop :=
  ∀ (g : List Byte) (F : Frame) (s : State), BlockInv s → s.Quiet → s.Empty → ValidFrame F → (0x0F#8 ∉ g) →
    g.length + 25 ≤ s.cap →
    ∃ t, exec (.push (g ++ F.toList)) s = .next t ∧ t.recOut = s.recOut ++ [decodeFrame F] ∧ t.Empty

/-- R111, and the source's back-to-back property: valid frames one behind the other are all decoded at their true
starts, in order, and everything is consumed. -/
def Obligations.AlignedFramesAllDecoded : Prop :=
  ∀ (Fs : List Frame) (s : State), BlockInv s → s.Quiet → s.Empty → (∀ F ∈ Fs, ValidFrame F) → Fs ≠ [] →
    25 * Fs.length ≤ s.cap →
    ∃ t, exec (.push (streamOf Fs)) s = .next t ∧ t.recOut = s.recOut ++ Fs.map decodeFrame ∧ t.Empty

/-- R112: ENC then PUSH of the 25 bytes on `enc_out`, from an empty buffer, emits exactly one record, the masked
channels with all flags false, leaves FLC unchanged, and consumes everything. -/
def Obligations.RoundTripThroughTheBlock : Prop :=
  ∀ (r : EncRecord) (s : State), BlockInv s → s.Quiet → s.Empty →
    ∃ u F t, exec (.enc r) s = .next u ∧ u.encOut = s.encOut ++ [F] ∧ exec (.push F.toList) u = .next t ∧
      t.recOut = s.recOut ++ [⟨Vector.ofFn fun i : Fin 16 => (r.ch.get i).setWidth 11, false, false, false, false⟩] ∧
      t.flc = s.flc ∧ t.Empty

/-- R47, R86: take any turns after M-admit, in which the synchronizer, the consumer, ENC and RDCNT move: the operations
presented are `reads`, each an ENC or an RDCNT, at least as many as there are request turns (or the bytes behind them
spell no whole operation, and such a turn waits). Then every value RDCNT put on `fl_count` meanwhile is FLC after some
prefix of the PUSH's records, later values after prefixes no shorter; one more RDCNT then returns FLC after the prefix
of `k`, no shorter either; and the records of that prefix are on `rec_out`, but for one that is counted and still waits
at M-emit. Where the PUSH has ended, that prefix is all of them (R99, R132), and the buffer and the cursors are those the
transaction leaves (R104). A PUSH or RST between the micro-steps is refused (PushRefusedDuringPush,
RstRefusedDuringPush). The turns, the requests and the wait are the model's choice (notes/assumptions/2.md, 3.md and 9.md). -/
def Obligations.ConcurrentReadSeesAPrefix : Prop :=
  ∀ (b rest : List Byte) (s t : State) (ts : List Turn) (reads : List Instr), s.phase = .idle → b.length ≤ s.cap →
    (∀ i ∈ reads, mayInterleave i = true) → s.requests = reads.flatMap encode ++ rest →
    (ts.count .request ≤ reads.length ∨ decode rest = .error .incomplete) → takeTurns ts (s.admitBatch b) = .next t →
    ∃ (k : Nat) (ks : List Nat), k ≤ (s.afterAppend b).matchedRecords.length ∧ ks.Pairwise (· ≤ ·) ∧
      (∀ x ∈ ks, x ≤ k) ∧ t.flCount = s.flCount ++ ks.map (countAfter s.flc (s.afterAppend b).matchedRecords) ∧
      exec .rdcnt t = .next (t.withFlCount (countAfter s.flc (s.afterAppend b).matchedRecords k)) ∧
      (t.recOut = s.recOut ++ (s.afterAppend b).matchedRecords.take k ∨
        ∃ p last rec, t.phase = .emit p last rec ∧ (s.afterAppend b).matchedRecords[k - 1]? = some rec ∧
          t.recOut = s.recOut ++ (s.afterAppend b).matchedRecords.take (k - 1)) ∧
      (t.phase = .idle → k = (s.afterAppend b).matchedRecords.length ∧
        t.recOut = s.recOut ++ (s.afterAppend b).matchedRecords ∧ t.buf = (pushTransaction b s).buf ∧
        t.cons = (pushTransaction b s).cons ∧ t.app = (pushTransaction b s).app)

/-- R140: with a ready consumer, a scan that starts at `p` reaches M-final after finitely many micro-steps: at most one
per candidate position, one more per match, and M-final itself. -/
def Obligations.ScanEndsInBoundedMicroSteps : Prop :=
  ∀ (s : State) (p : Nat) (last : Option Nat), s.app ≤ s.cap → s.ready = true → s.phase = .scan p last →
    ∃ n t, n ≤ (s.app - p - 24) + (greedyFrom (isFrameAt s.buf) s.app (s.app + 1) p).length + 1 ∧
      takeTurns (List.replicate n .sync) s = .next t ∧ t.phase = .idle

/-! ## The step, and whole-machine rules -/

/-- R15, R45: where it is a request's turn and the next bytes decode to `i`, the step is `exec i`, with those bytes
taken off the requests and the turn off the list. The requests and the turns are the model's choice
(notes/assumptions/2.md and 3.md). -/
def Obligations.StepRunsTheDecodedOperation : Prop :=
  ∀ (s : State) (i : Instr) (rest : List Byte), decode s.requests = .ok (i, rest) →
    (s.turns = [] ∧ s.phase = .idle) ∨ s.turns.head? = some .request →
    step s = exec i { s with requests := rest, turns := s.turns.tail }

/-- R122, R126: the other steps: a listed turn is its agent's move; a PUSH in progress goes on; and an idle block with
no whole operation before it holds its state unchanged. The turns are the model's choice (notes/assumptions/3.md), and
so is waiting for the rest of an operation (notes/assumptions/9.md). -/
def Obligations.StepWithoutARequest : Prop :=
  (∀ (s : State) (x : Turn) (ts : List Turn), s.turns = x :: ts → step s = takeTurn x { s with turns := ts }) ∧
  (∀ s : State, s.turns = [] → s.phase ≠ .idle → step s = syncRun s) ∧
  (∀ s : State, s.turns = [] → s.phase = .idle → decode s.requests = .error .incomplete → step s = .next s)

/-- R24, R108: every step from a state that meets the invariant ends in one that does. -/
def Obligations.InvariantKeptByEveryStep : Prop := ∀ s t : State, BlockInv s → step s = .next t → BlockInv t

/-- R32, R24: the block starts in a state that meets the invariant. -/
def Obligations.ResetMeetsTheInvariant : Prop := BlockInv State.reset

/-- R108: every operation keeps, at every operation boundary: (a) `0 <= CONS <= APP <= CAP`; (b) no position from CONS
to `APP - 25` is a match; (c) `CONS = 0` or `CAP - APP >= 25`; (d) `CONS = APP` implies both are 0. And the whole PUSH
procedure with an empty batch changes nothing and emits nothing. -/
def Obligations.OperationBoundaryInvariants : Prop :=
  (∀ s : State, BlockInv s → s.phase = .idle → pushTransaction [] s = s) ∧
  ∀ (i : Instr) (s t : State), BlockInv s → exec i s = .next t → t.phase = .idle →
    (t.cons ≤ t.app ∧ t.app ≤ t.cap) ∧
    (∀ q, t.cons ≤ q → q + 25 ≤ t.app → ¬(t.buf.read q = 0x0F#8 ∧ t.buf.read (q + 24) ∈ endSet)) ∧
    (t.cons = 0 ∨ t.cap - t.app ≥ 25) ∧
    (t.cons = t.app → t.cons = 0 ∧ t.app = 0)

/-- R113: no step from a state that meets the invariant faults. The one fault is the model's
(notes/assumptions/11.md). -/
def Obligations.NoStepFaults : Prop := ∀ (s : State) (f : Fault), BlockInv s → step s ≠ .fault f

/-- R25: an operation that changes FLC is a PUSH or an RST, and a micro-step that changes it is an M-count of a
frame-lost frame, by one. -/
def Obligations.CounterIsWrittenOnlyByPushAndRst : Prop :=
  (∀ (i : Instr) (s t : State), exec i s = .next t → t.flc ≠ s.flc → (∃ b, i = .push b) ∨ (i = .rst ∧ t.flc = 0#32)) ∧
  ∀ s t : State, microStep s = .next t → t.flc ≠ s.flc →
    t.flc = s.flc + 1#32 ∧ ∃ p last, s.phase = .scan p last ∧ isFrameAt s.buf p = true ∧
      (recordAt s.buf p).frameLost = true

/-- R19, R32: `rec_out` never drops or reorders a record: every step extends the stream, but the one that
performs the RST that re-creates the engine: no PUSH is in progress, it is a request's turn, the next operation is RST,
and behind it the stream is empty (when it is a request's turn: notes/assumptions/2.md and 3.md; how RST treats the
ports: notes/assumptions/6.md). -/
def Obligations.RecordStreamOnlyGrows : Prop :=
  ∀ s t : State, step s = .next t →
    s.recOut <+: t.recOut ∨
      (s.phase = .idle ∧ (s.turns = [] ∨ s.turns.head? = some .request) ∧
        (∃ rest, decode s.requests = .ok (.rst, rest)) ∧ t.recOut = [])

/-- R29: no step changes CAP. -/
def Obligations.CapacityNeverChanges : Prop := ∀ s t : State, step s = .next t → t.cap = s.cap

/-- R23, R31: stale bytes do not matter: two states that differ only outside `[CONS, APP)` step to states that differ
only outside it, with the same outputs, cursors and counter, or are refused alike. What the model keeps there is its
choice (notes/assumptions/7.md), and this says that it does not matter. -/
def Obligations.StaleBytesAreNotObservable : Prop :=
  ∀ s t : State, BlockInv s → t.buf.wf = true → SameButStale s t → SameOutcomeButStale (step s) (step t)

/-! ## PUSH: its last micro-step -/

/-- R86 item 3, R92, R100 to R102: where no candidate is left, the next micro-step is M-final, whoever is ready: cursor
advance, compaction and full-consumption reset as one micro-step, behind which no PUSH is in progress, and nothing else
(what the three do to the buffer and the cursors: CursorsAfterTheScan, CompactionMovesTheTail). That a
turn `sync` is what performs it under listed turns is the model's choice (notes/assumptions/3.md). -/
def Obligations.LastMicroStepFinalizes : Prop :=
  ∀ (s : State) (p : Nat) (last : Option Nat), s.phase = .scan p last → s.app ≤ s.cap → s.app < p + 25 →
    microStep s = .next { ((s.advanceCons last).compact).resetIfConsumed with phase := .idle } ∧
    takeTurn .sync s = .next { ((s.advanceCons last).compact).resetIfConsumed with phase := .idle } ∧
    ∃ buf cons app, microStep s = .next { s with buf := buf, cons := cons, app := app, phase := .idle }
end

