-- ==== Sys2Proof/Laws/Codec.lean ====
section
/-! SUPPORT. The wire frame bit by bit: what packing, unpacking, encoding and decoding give at each bit. -/

namespace Sys2Proof.Machine

/-- A bit of an OR of pieces. -/
theorem getLsbD_foldl_or {α : Type} {w : Nat} (f : α → BitVec w) (l : List α) (a : BitVec w) (n : Nat) :
    (l.foldl (fun P i => P ||| f i) a).getLsbD n = (a.getLsbD n || l.any fun i => (f i).getLsbD n) := by
  induction l generalizing a with
  | nil => simp
  | cons i l ih => rw [List.foldl_cons, ih, BitVec.getLsbD_or, List.any_cons, Bool.or_assoc]

/-- Payload bit `11i + j` is bit `j` of channel `i` (R37, R77). -/
theorem getLsbD_packChannels (c : Vector Channel 16) (i : Fin 16) (j : Nat) (hj : j < 11) :
    (packChannels c).getLsbD (11 * i.val + j) = (c.get i).getLsbD j := by
  have hi := i.isLt
  have hpiece : ∀ k : Fin 16, ((c.get k).setWidth 176 <<< (11 * k.val)).getLsbD (11 * i.val + j) =
      (decide (k = i) && (c.get i).getLsbD j) := by
    intro k
    rw [BitVec.getLsbD_shiftLeft, BitVec.getLsbD_setWidth, decide_eq_true (by omega), Bool.true_and]
    rcases Nat.lt_trichotomy k.val i.val with h | h | h
    · have : 11 ≤ 11 * i.val + j - 11 * k.val := by omega
      rw [BitVec.getLsbD_of_ge _ _ this, decide_eq_false (p := k = i) (by rintro rfl; omega)]
      simp
    · obtain rfl : k = i := Fin.ext h
      have : 11 * k.val + j - 11 * k.val = j := by omega
      rw [this, decide_eq_false (p := 11 * k.val + j < 11 * k.val) (by omega), decide_eq_true (p := j < 176) (by omega)]
      simp
    · rw [decide_eq_true (p := 11 * i.val + j < 11 * k.val) (by omega),
        decide_eq_false (p := k = i) (by rintro rfl; omega)]
      simp
  rw [packChannels, getLsbD_foldl_or]
  simp only [hpiece]
  rw [show (0#176).getLsbD (11 * i.val + j) = false by simp, Bool.false_or, Bool.eq_iff_iff, List.any_eq_true]
  constructor
  · rintro ⟨k, _, hk⟩
    simp only [Bool.and_eq_true] at hk
    exact hk.2
  · intro h
    exact ⟨i, List.mem_finRange i, by simp [h]⟩

/-- Payload bit `8k + j` is bit `j` of frame byte `F(1+k)` (R37, R55). -/
theorem getLsbD_payloadOf (F : Frame) (k : Fin 22) (j : Nat) (hj : j < 8) :
    (payloadOf F).getLsbD (8 * k.val + j) = (F.get ⟨1 + k.val, by omega⟩).getLsbD j := by
  have hk := k.isLt
  have hpiece : ∀ i : Fin 22, ((F.get ⟨1 + i.val, by omega⟩).setWidth 176 <<< (8 * i.val)).getLsbD (8 * k.val + j) =
      (decide (i = k) && (F.get ⟨1 + k.val, by omega⟩).getLsbD j) := by
    intro i
    rw [BitVec.getLsbD_shiftLeft, BitVec.getLsbD_setWidth, decide_eq_true (by omega), Bool.true_and]
    rcases Nat.lt_trichotomy i.val k.val with h | h | h
    · have : 8 ≤ 8 * k.val + j - 8 * i.val := by omega
      rw [BitVec.getLsbD_of_ge _ _ this, decide_eq_false (p := i = k) (by rintro rfl; omega)]
      simp
    · obtain rfl : i = k := Fin.ext h
      have : 8 * i.val + j - 8 * i.val = j := by omega
      rw [this, decide_eq_false (p := 8 * i.val + j < 8 * i.val) (by omega), decide_eq_true (p := j < 176) (by omega)]
      simp
    · rw [decide_eq_true (p := 8 * k.val + j < 8 * i.val) (by omega),
        decide_eq_false (p := i = k) (by rintro rfl; omega)]
      simp
  rw [payloadOf, getLsbD_foldl_or]
  simp only [hpiece]
  rw [show (0#176).getLsbD (8 * k.val + j) = false by simp, Bool.false_or, Bool.eq_iff_iff, List.any_eq_true]
  constructor
  · rintro ⟨i, _, hi⟩
    simp only [Bool.and_eq_true] at hi
    exact hi.2
  · intro h
    exact ⟨k, List.mem_finRange k, by simp [h]⟩

/-- Bit `j` of a byte of the payload field (R77). -/
theorem getLsbD_payloadByte (P : Payload) (k j : Nat) (hj : j < 8) :
    (payloadByte P k).getLsbD j = P.getLsbD (8 * k + j) := by
  simp [payloadByte, hj]

/-- Bit `j` of an unpacked channel (R94). -/
theorem getLsbD_unpackChannels (P : Payload) (i : Fin 16) (j : Nat) (hj : j < 11) :
    ((unpackChannels P).get i).getLsbD j = P.getLsbD (11 * i.val + j) := by
  simp [unpackChannels, Vector.get_eq_getElem, hj]

/-- The bytes of an ENC frame. -/
theorem getElem_encodeFrame (r : EncRecord) (k : Nat) (h : k < 25) :
    (encodeFrame r)[k] =
      if k = 0 then header else if k ≤ 22 then payloadByte (packChannels (maskedChannels r)) (k - 1)
      else if k = 23 then flagsTx else endCanon := by
  simp [encodeFrame]

/-- A payload byte of an ENC frame. -/
theorem getElem_encodeFrame_payload (r : EncRecord) (k : Nat) (h : k < 22) :
    (encodeFrame r)[1 + k] = payloadByte (packChannels (maskedChannels r)) k := by
  rw [getElem_encodeFrame, if_neg (by omega), if_pos (by omega), show 1 + k - 1 = k by omega]

/-- The payload field of an ENC frame is the packed masked channels. -/
theorem payloadOf_encodeFrame (r : EncRecord) : payloadOf (encodeFrame r) = packChannels (maskedChannels r) := by
  refine BitVec.eq_of_getLsbD_eq fun n hn => ?_
  have hsplit : n = 8 * (n / 8) + n % 8 := by omega
  rw [hsplit, getLsbD_payloadOf _ ⟨n / 8, by omega⟩ _ (by omega), Vector.get_eq_getElem]
  simp only
  rw [getElem_encodeFrame_payload _ _ (by omega), getLsbD_payloadByte _ _ _ (by omega)]

/-- Unpacking undoes packing (R94, R77). -/
theorem unpack_pack (c : Vector Channel 16) : unpackChannels (packChannels c) = c := by
  apply Vector.ext
  intro i hi
  refine BitVec.eq_of_getLsbD_eq fun j hj => ?_
  have h := getLsbD_unpackChannels (packChannels c) ⟨i, hi⟩ j hj
  rw [getLsbD_packChannels c ⟨i, hi⟩ j hj] at h
  simpa only [Vector.get_eq_getElem] using h

/-- Packing undoes unpacking: every bit of the field belongs to one channel (R55). -/
theorem pack_unpack (P : Payload) : packChannels (unpackChannels P) = P := by
  refine BitVec.eq_of_getLsbD_eq fun n hn => ?_
  have hsplit : n = 11 * (n / 11) + n % 11 := by omega
  rw [hsplit, getLsbD_packChannels _ ⟨n / 11, by omega⟩ _ (by omega),
    getLsbD_unpackChannels _ ⟨n / 11, by omega⟩ _ (by omega)]

end Sys2Proof.Machine
end

