-- ==== Sys2Proof/Laws/Encoding.lean ====
section
/-! SUPPORT. The byte-level facts of the serialized form: two-byte fields, the flags byte, the channel bytes of an ENC
and their assembly, and the length of a spelling. -/

namespace Sys2Proof

theorem getLsbD_fromBytes (lo hi : Byte) (i : Nat) :
    (fromBytes lo hi).getLsbD i = if i < 8 then lo.getLsbD i else hi.getLsbD (i - 8) := by
  show (hi ++ lo).getLsbD i = _
  rw [BitVec.getLsbD_append]

/-- A two-byte field is its two bytes. -/
theorem fromBytes_low_high (v : BitVec 16) : fromBytes (lowByte v) (highByte v) = v := by
  refine BitVec.eq_of_getLsbD_eq fun i hi => ?_
  rw [getLsbD_fromBytes, lowByte, highByte]
  split
  · next h => simp [h]
  · next h =>
    rw [BitVec.getLsbD_setWidth, BitVec.getLsbD_ushiftRight, decide_eq_true (by omega), Bool.true_and]
    congr 1
    omega

theorem low_fromBytes (a b : Byte) : lowByte (fromBytes a b) = a := by
  refine BitVec.eq_of_getLsbD_eq fun i hi => ?_
  simp [lowByte, getLsbD_fromBytes, hi]

theorem high_fromBytes (a b : Byte) : highByte (fromBytes a b) = b := by
  refine BitVec.eq_of_getLsbD_eq fun i hi => ?_
  simp [highByte, getLsbD_fromBytes, hi]

/-- The channel bytes of an ENC, low byte first. -/
def channelBytes (l : List ChannelIn) : List Byte := l.flatMap fun c => [lowByte c, highByte c]

@[simp] theorem length_channelBytes (l : List ChannelIn) : (channelBytes l).length = 2 * l.length := by
  induction l with
  | nil => rfl
  | cons c l ih =>
    simp only [channelBytes, List.flatMap_cons, List.length_append, List.length_cons, List.length_nil] at *
    omega

theorem channelBytes_low (l : List ChannelIn) (i : Nat) (h : i < l.length) (t : List Byte) :
    (channelBytes l ++ t).getD (2 * i) 0#8 = lowByte l[i] := by
  induction l generalizing i with
  | nil => simp at h
  | cons c l ih =>
    cases i with
    | zero => rfl
    | succ i => simpa [channelBytes, Nat.mul_add] using ih i (by simpa using h)

theorem channelBytes_high (l : List ChannelIn) (i : Nat) (h : i < l.length) (t : List Byte) :
    (channelBytes l ++ t).getD (2 * i + 1) 0#8 = highByte l[i] := by
  induction l generalizing i with
  | nil => simp at h
  | cons c l ih =>
    cases i with
    | zero => rfl
    | succ i => simpa [channelBytes, Nat.mul_add] using ih i (by simpa using h)

/-- The flags byte's low four bits are the four booleans (R63). -/
theorem encFlagsByte_bits (r : EncRecord) :
    (encFlagsByte r).getLsbD 0 = r.digital1 ∧ (encFlagsByte r).getLsbD 1 = r.digital2 ∧
      (encFlagsByte r).getLsbD 2 = r.frameLost ∧ (encFlagsByte r).getLsbD 3 = r.failSafe := by
  obtain ⟨c, a, b, d, e⟩ := r
  cases a <;> cases b <;> cases d <;> cases e <;> simp only [encFlagsByte] <;> decide

/-- The spelling of an ENC, part by part. -/
theorem encode_enc (r : EncRecord) :
    encode (.enc r) = 0x01#8 :: (channelBytes r.ch.toList ++ [encFlagsByte r]) := rfl

/-- Assembling the operand bytes of a spelling gives the record back (R66). -/
theorem encOperand_encode (r : EncRecord) (rest : List Byte) : encOperand (encode (.enc r) ++ rest) = r := by
  have hb : ∀ k, byteAt (encode (.enc r) ++ rest) (k + 1) =
      (channelBytes r.ch.toList ++ ([encFlagsByte r] ++ rest)).getD k 0#8 := by
    intro k
    simp [encode_enc, byteAt]
  have h33 : byteAt (encode (.enc r) ++ rest) 33 = encFlagsByte r := by
    rw [hb 32, List.getD_append_right _ _ _ _ (by simp)]
    simp
  obtain ⟨h0, h1, h2, h3⟩ := encFlagsByte_bits r
  have hch : (encOperand (encode (.enc r) ++ rest)).ch = r.ch := by
    apply Vector.ext
    intro i hi
    simp only [encOperand, Vector.getElem_ofFn]
    rw [show 1 + 2 * i = 2 * i + 1 by omega, hb, show 2 + 2 * i = 2 * i + 1 + 1 by omega, hb,
      channelBytes_low _ _ (by simpa using hi), channelBytes_high _ _ (by simpa using hi)]
    simp [fromBytes_low_high]
  have : encOperand (encode (.enc r) ++ rest) = ⟨(encOperand (encode (.enc r) ++ rest)).ch, _, _, _, _⟩ := rfl
  rw [this, hch, h33, h0, h1, h2, h3]

/-- The channel bytes spelled from assembled operands are the operand bytes. -/
theorem channelBytes_encOperand (bs : List Byte) (k : Nat) (hk : k < 32) :
    (channelBytes (encOperand bs).ch.toList).getD k 0#8 = byteAt bs (k + 1) := by
  obtain ⟨j, rfl | rfl⟩ : ∃ j, k = 2 * j ∨ k = 2 * j + 1 := ⟨k / 2, by omega⟩
  · have := channelBytes_low (encOperand bs).ch.toList j (by simp; omega) []
    rw [List.append_nil] at this
    rw [this]
    simp only [encOperand, Vector.getElem_toList, Vector.getElem_ofFn, low_fromBytes]
    rw [Nat.add_comm]
  · have := channelBytes_high (encOperand bs).ch.toList j (by simp; omega) []
    rw [List.append_nil] at this
    rw [this]
    simp only [encOperand, Vector.getElem_toList, Vector.getElem_ofFn, high_fromBytes]
    rw [Nat.add_comm]

/-- The length field of a PUSH's spelling (R66). -/
theorem pushLength_encode (b rest : List Byte) (h : b.length < 65536) :
    pushLength (encode (.push b) ++ rest) = b.length := by
  show (fromBytes (lowByte _) (highByte _)).toNat = _
  rw [fromBytes_low_high]
  simp
  omega

/-- A length field is below `2^16` (R63). -/
theorem pushLength_lt (bs : List Byte) : pushLength bs < 65536 := (fromBytes (byteAt bs 1) (byteAt bs 2)).isLt

theorem byteAt_append (bs rest : List Byte) (k : Nat) (h : k < bs.length) : byteAt (bs ++ rest) k = byteAt bs k := by
  simp [byteAt, List.getElem?_append_left h]

/-- What the decoder does with an ENC opcode (R63). -/
theorem decode_of_enc {bs tl : List Byte} {op : Byte} (h : bs = op :: tl) (hop : op = 0x01#8) :
    decode bs = if bs.length < 34 then .error .incomplete else .ok (.enc (encOperand bs), bs.drop 34) := by
  subst h hop
  rfl

/-- What the decoder does with a PUSH opcode (R63). -/
theorem decode_of_push {bs tl : List Byte} {op : Byte} (h : bs = op :: tl) (hop : op = 0x02#8) :
    decode bs = if bs.length < 3 ∨ bs.length < 3 + pushLength bs then .error .incomplete
      else .ok (.push ((bs.drop 3).take (pushLength bs)), bs.drop (3 + pushLength bs)) := by
  subst h hop
  rfl

/-- Decoding an operation looks at no byte behind it. -/
theorem decode_append {bs l : List Byte} {i : Instr} (rest : List Byte) (h : decode bs = .ok (i, l)) :
    decode (bs ++ rest) = .ok (i, l ++ rest) := by
  match hbs : bs with
  | [] => simp [decode] at h
  | op :: tl =>
    have hbr : (op :: tl) ++ rest = op :: (tl ++ rest) := rfl
    by_cases h1 : op = 0x01#8
    · rw [decode_of_enc rfl h1] at h
      split at h
      · cases h
      · next hl =>
        cases h
        have he : encOperand (op :: tl ++ rest) = encOperand (op :: tl) := by
          have hk : ∀ k, k < 34 → byteAt (op :: tl ++ rest) k = byteAt (op :: tl) k :=
            fun k hk => byteAt_append _ _ _ (by omega)
          have hch : (encOperand (op :: tl ++ rest)).ch = (encOperand (op :: tl)).ch := by
            apply Vector.ext
            intro i hi
            simp only [encOperand, Vector.getElem_ofFn, hk (1 + 2 * i) (by omega), hk (2 + 2 * i) (by omega)]
          have hw : encOperand (op :: tl ++ rest) = ⟨(encOperand (op :: tl ++ rest)).ch, _, _, _, _⟩ := rfl
          rw [hw, hch, hk 33 (by omega)]
          rfl
        rw [decode_of_enc hbr h1, if_neg (by simp only [List.length_append]; omega), he,
          List.drop_append_of_le_length (by omega)]
    · by_cases h2 : op = 0x02#8
      · rw [decode_of_push rfl h2] at h
        split at h
        · cases h
        · next hl =>
          cases h
          have hp : pushLength (op :: tl ++ rest) = pushLength (op :: tl) := by
            rw [pushLength, byteAt_append _ _ _ (by omega), byteAt_append _ _ _ (by omega)]
            rfl
          rw [decode_of_push hbr h2, hp, if_neg (by simp only [List.length_append]; omega),
            List.drop_append_of_le_length (by omega), List.drop_append_of_le_length (by omega),
            List.take_append_of_le_length (by rw [List.length_drop]; omega)]
      · simp only [List.cons_append, decode, h1, h2, if_false] at h ⊢
        split at h
        · next h3 =>
          cases h
          rw [if_pos h3]
          rfl
        · next h3 =>
          rw [if_neg h3]
          split at h
          · next h4 =>
            cases h
            rw [if_pos h4]
            rfl
          · cases h

end Sys2Proof
end

