-- ==== Sys2Proof/Laws/Memory.lean ====
section
/-! SUPPORT. What every memory operation does to a read, to the canonical form and to the offsets listed; the canonical
form makes equal memories equal lists. -/

namespace Sys2Proof.Machine

/-- The canonical form, said over all cells: none holds 0x00, and the offsets rise strictly. -/
theorem Memory.wf_iff (m : Memory) :
    m.wf = true ↔ (∀ c ∈ m, c.2 ≠ 0#8) ∧ m.Pairwise (fun c d => c.1 < d.1) := by
  induction m with
  | nil => simp [Memory.wf]
  | cons c m ih =>
    cases m with
    | nil => simp [Memory.wf]
    | cons d m =>
      simp only [Memory.wf, Bool.and_eq_true, bne_iff_ne, decide_eq_true_eq, ih, List.forall_mem_cons,
        List.pairwise_cons]
      constructor
      · rintro ⟨⟨hc, hcd⟩, ⟨hd, hm⟩, hdm, hp⟩
        exact ⟨⟨hc, hd, hm⟩, ⟨hcd, fun e he => lt_trans hcd (hdm e he)⟩, hdm, hp⟩
      · rintro ⟨⟨hc, hd, hm⟩, ⟨hcd, _⟩, hdm, hp⟩
        exact ⟨⟨hc, hcd⟩, ⟨hd, hm⟩, hdm, hp⟩

@[simp] theorem Memory.read_nil (o : Nat) : Memory.read [] o = 0#8 := rfl

@[simp] theorem Memory.read_cleared (o : Nat) : Memory.cleared.read o = 0#8 := rfl

@[simp] theorem Memory.wf_cleared : Memory.cleared.wf = true := rfl

theorem Memory.read_cons (c : Host.Cell) (m : Memory) (o : Nat) :
    Memory.read (c :: m) o = if o = c.1 then c.2 else Memory.read m o := rfl

/-- An offset below every listed one reads 0x00. -/
theorem Memory.read_of_forall_lt {m : Memory} {o : Nat} (h : ∀ c ∈ m, o < c.1) : m.read o = 0#8 := by
  induction m with
  | nil => rfl
  | cons c m ih =>
    have hc := h c List.mem_cons_self
    rw [Memory.read_cons, if_neg (by omega)]
    exact ih fun d hd => h d (List.mem_cons_of_mem _ hd)

/-- A write leaves every other offset as it was, in any list. -/
theorem Memory.read_write_ne {m : Memory} {a o : Nat} (v : Byte) (h : o ≠ a) : (m.write a v).read o = m.read o := by
  induction m with
  | nil => by_cases hv : v = 0#8 <;> simp [Memory.write, Memory.read, hv, h]
  | cons c m ih =>
    simp only [Memory.write]
    split
    · by_cases hv : v = 0#8 <;> simp [hv, Memory.read, h]
    · split
      · by_cases hv : v = 0#8 <;> simp_all [Memory.read]
      · simp only [Memory.read, ih]

/-- A write stores the value. -/
theorem Memory.read_write_self {m : Memory} (hm : m.wf = true) (a : Nat) (v : Byte) : (m.write a v).read a = v := by
  induction m with
  | nil => by_cases hv : v = 0#8 <;> simp [Memory.write, Memory.read, hv]
  | cons c m ih =>
    obtain ⟨hz, hp⟩ := (Memory.wf_iff _).1 hm
    obtain ⟨hlt, hp⟩ := List.pairwise_cons.1 hp
    have hm' : Memory.wf m = true := (Memory.wf_iff m).2 ⟨fun d hd => hz d (List.mem_cons_of_mem _ hd), hp⟩
    simp only [Memory.write]
    split
    · rename_i hac
      by_cases hv : v = 0#8
      · simp only [hv, if_true]
        refine Memory.read_of_forall_lt ?_
        rintro d (_ | ⟨_, hd⟩)
        · exact hac
        · exact lt_trans hac (hlt d hd)
      · simp [hv, Memory.read]
    · split
      · rename_i hac
        by_cases hv : v = 0#8
        · simp only [hv, if_true]
          exact Memory.read_of_forall_lt fun d hd => hac ▸ hlt d hd
        · simp [hv, Memory.read]
      · rename_i hac
        simp only [Memory.read, if_neg hac]
        exact ih hm'

/-- What a read sees after a write. -/
theorem Memory.read_write {m : Memory} (hm : m.wf = true) (a o : Nat) (v : Byte) :
    (m.write a v).read o = if o = a then v else m.read o := by
  by_cases h : o = a
  · subst h
    simp [Memory.read_write_self hm]
  · simp [h, Memory.read_write_ne v h]

/-- A write lists no offset but its own. -/
theorem Memory.mem_write {m : Memory} {a : Nat} {v : Byte} {c : Host.Cell} (h : c ∈ m.write a v) :
    c ∈ m ∨ c = (a, v) := by
  induction m with
  | nil => by_cases hv : v = 0#8 <;> simp_all [Memory.write]
  | cons d m ih =>
    simp only [Memory.write] at h
    split at h
    · by_cases hv : v = 0#8 <;> simp_all [or_comm]
    · split at h
      · by_cases hv : v = 0#8
        · rw [if_pos hv] at h
          exact Or.inl (List.mem_cons_of_mem _ h)
        · rw [if_neg hv] at h
          rcases List.mem_cons.1 h with h | h
          · exact Or.inr h
          · exact Or.inl (List.mem_cons_of_mem _ h)
      · rcases List.mem_cons.1 h with h | h
        · exact Or.inl (h ▸ List.mem_cons_self)
        · exact (ih h).imp_left (List.mem_cons_of_mem _)

/-- A write keeps the canonical form. -/
theorem Memory.wf_write {m : Memory} (hm : m.wf = true) (a : Nat) (v : Byte) : (m.write a v).wf = true := by
  induction m with
  | nil => by_cases hv : v = 0#8 <;> simp [Memory.write, Memory.wf, hv]
  | cons c m ih =>
    obtain ⟨hz, hp⟩ := (Memory.wf_iff _).1 hm
    obtain ⟨hlt, hp'⟩ := List.pairwise_cons.1 hp
    have hm' : Memory.wf m = true := (Memory.wf_iff m).2 ⟨fun d hd => hz d (List.mem_cons_of_mem _ hd), hp'⟩
    simp only [Memory.write]
    split
    · rename_i hac
      by_cases hv : v = 0#8
      · simpa [hv] using hm
      · rw [if_neg hv, Memory.wf_iff]
        refine ⟨?_, List.pairwise_cons.2 ⟨?_, hp⟩⟩
        · rintro d (_ | ⟨_, hd⟩)
          · exact hv
          · exact hz d hd
        · rintro d (_ | ⟨_, hd⟩)
          · exact hac
          · exact lt_trans hac (hlt d hd)
    · split
      · rename_i hac
        by_cases hv : v = 0#8
        · simpa [hv] using hm'
        · rw [if_neg hv, Memory.wf_iff]
          refine ⟨?_, List.pairwise_cons.2 ⟨fun d hd => hac ▸ hlt d hd, hp'⟩⟩
          rintro d (_ | ⟨_, hd⟩)
          · exact hv
          · exact hz d (List.mem_cons_of_mem _ hd)
      · rename_i hlo hne
        obtain ⟨hz', hp''⟩ := (Memory.wf_iff _).1 (ih hm')
        rw [Memory.wf_iff]
        refine ⟨?_, List.pairwise_cons.2 ⟨?_, hp''⟩⟩
        · rintro d (_ | ⟨_, hd⟩)
          · exact hz c List.mem_cons_self
          · exact hz' d hd
        · intro d hd
          rcases Memory.mem_write hd with hd | rfl
          · exact hlt d hd
          · simp only
            omega

/-- Memories in canonical form that read alike are the same list. -/
theorem Memory.ext_read {m n : Memory} (hm : m.wf = true) (hn : n.wf = true) (h : ∀ o, m.read o = n.read o) :
    m = n := by
  induction m generalizing n with
  | nil =>
    cases n with
    | nil => rfl
    | cons d n =>
      have hd := ((Memory.wf_iff _).1 hn).1 d List.mem_cons_self
      have := h d.1
      simp [Memory.read_cons] at this
      exact absurd this.symm hd
  | cons c m ih =>
    obtain ⟨hcz, hcp⟩ := (Memory.wf_iff _).1 hm
    obtain ⟨hclt, hcp'⟩ := List.pairwise_cons.1 hcp
    have hc := hcz c List.mem_cons_self
    cases n with
    | nil =>
      have := h c.1
      simp [Memory.read_cons] at this
      exact absurd this hc
    | cons d n =>
      obtain ⟨hdz, hdp⟩ := (Memory.wf_iff _).1 hn
      obtain ⟨hdlt, hdp'⟩ := List.pairwise_cons.1 hdp
      have hd := hdz d List.mem_cons_self
      have hcd : c.1 = d.1 := by
        rcases Nat.lt_trichotomy c.1 d.1 with hl | he | hl
        · have h1 := h c.1
          rw [Memory.read_cons, if_pos rfl, Memory.read_of_forall_lt (m := d :: n)] at h1
          · exact absurd h1 hc
          · rintro e (_ | ⟨_, he⟩)
            · exact hl
            · exact lt_trans hl (hdlt e he)
        · exact he
        · have h1 := h d.1
          rw [Memory.read_cons (c := d), if_pos rfl, Memory.read_of_forall_lt (m := c :: m)] at h1
          · exact absurd h1.symm hd
          · rintro e (_ | ⟨_, he⟩)
            · exact hl
            · exact lt_trans hl (hclt e he)
      have hv : c.2 = d.2 := by
        have h1 := h c.1
        rwa [Memory.read_cons, if_pos rfl, Memory.read_cons, if_pos hcd] at h1
      have hwm : Memory.wf m = true := (Memory.wf_iff m).2 ⟨fun e he => hcz e (List.mem_cons_of_mem _ he), hcp'⟩
      have hwn : Memory.wf n = true := (Memory.wf_iff n).2 ⟨fun e he => hdz e (List.mem_cons_of_mem _ he), hdp'⟩
      have htail : m = n := by
        refine ih hwm hwn fun o => ?_
        by_cases ho : o = c.1
        · subst ho
          rw [Memory.read_of_forall_lt hclt, Memory.read_of_forall_lt fun e he => hcd ▸ hdlt e he]
        · have h1 := h o
          rwa [Memory.read_cons, if_neg ho, Memory.read_cons, if_neg (hcd ▸ ho)] at h1
      rw [Prod.ext hcd hv, htail]

/-- Writing back what an offset holds changes nothing. -/
theorem Memory.write_read {m : Memory} (hm : m.wf = true) (a : Nat) : m.write a (m.read a) = m := by
  refine Memory.ext_read (Memory.wf_write hm _ _) hm fun o => ?_
  rw [Memory.read_write hm]
  split
  · rename_i h
    rw [h]
  · rfl

/-- An append keeps the canonical form. -/
theorem Memory.wf_writeList {m : Memory} (hm : m.wf = true) (o : Nat) (vs : List Byte) :
    (m.writeList o vs).wf = true := by
  induction vs generalizing m o with
  | nil => exact hm
  | cons v vs ih => exact ih (Memory.wf_write hm _ _) _

/-- What a read sees after an append (R90). -/
theorem Memory.read_writeList {m : Memory} (hm : m.wf = true) (o : Nat) (vs : List Byte) (a : Nat) :
    (m.writeList o vs).read a = if o ≤ a ∧ a < o + vs.length then vs.getD (a - o) 0#8 else m.read a := by
  induction vs generalizing m o with
  | nil =>
    rw [if_neg (by simp only [List.length_nil]; omega)]
    rfl
  | cons v vs ih =>
    rw [Memory.writeList, ih (Memory.wf_write hm _ _), Memory.read_write hm]
    rcases Nat.lt_trichotomy a o with h | h | h
    · rw [if_neg (by omega), if_neg (by omega), if_neg (by simp only [List.length_cons]; omega)]
    · subst h
      rw [if_neg (by omega), if_pos rfl, if_pos (by simp only [List.length_cons]; omega)]
      simp
    · have hs : a - o = (a - (o + 1)) + 1 := by omega
      by_cases hin : a < o + 1 + vs.length
      · rw [if_pos (by omega), if_pos (by simp only [List.length_cons]; omega), hs, List.getD_cons_succ]
      · rw [if_neg (by omega), if_neg (by omega), if_neg (by simp only [List.length_cons]; omega)]

/-- An append lists no offset but those of its bytes. -/
theorem Memory.mem_writeList {m : Memory} {o : Nat} {vs : List Byte} {c : Host.Cell} (h : c ∈ m.writeList o vs) :
    c ∈ m ∨ (o ≤ c.1 ∧ c.1 < o + vs.length) := by
  induction vs generalizing m o with
  | nil => exact Or.inl h
  | cons v vs ih =>
    rcases ih h with h | h
    · rcases Memory.mem_write h with h | rfl
      · exact Or.inl h
      · exact Or.inr (by simp only [List.length_cons]; omega)
    · exact Or.inr (by simp only [List.length_cons]; omega)

/-- A move down keeps the canonical form. -/
theorem Memory.wf_moveDown {m : Memory} (hm : m.wf = true) (src j k : Nat) : (m.moveDown src j k).wf = true := by
  induction k generalizing m j with
  | zero => exact hm
  | succ k ih => exact ih (Memory.wf_write hm _ _) _

/-- A move down reads as a move that destroys nothing (R101): each destination holds what its source held before. -/
theorem Memory.read_moveDown {m : Memory} (hm : m.wf = true) (src j k a : Nat) :
    (m.moveDown src j k).read a = if j ≤ a ∧ a < j + k then m.read (src + a) else m.read a := by
  induction k generalizing m j with
  | zero =>
    rw [if_neg (by omega)]
    rfl
  | succ k ih =>
    rw [Memory.moveDown, ih (Memory.wf_write hm _ _), Memory.read_write hm, Memory.read_write hm]
    rcases Nat.lt_trichotomy a j with h | h | h
    · rw [if_neg (by omega), if_neg (by omega), if_neg (by omega)]
    · subst h
      rw [if_neg (by omega), if_pos rfl, if_pos (by omega)]
    · by_cases hin : a < j + 1 + k
      · rw [if_pos (by omega), if_neg (by omega), if_pos (by omega)]
      · rw [if_neg (by omega), if_neg (by omega), if_neg (by omega)]

/-- A move down lists no offset but its destinations. -/
theorem Memory.mem_moveDown {m : Memory} {src j k : Nat} {c : Host.Cell} (h : c ∈ m.moveDown src j k) :
    c ∈ m ∨ (j ≤ c.1 ∧ c.1 < j + k) := by
  induction k generalizing m j with
  | zero => exact Or.inl h
  | succ k ih =>
    rcases ih h with h | h
    · rcases Memory.mem_write h with h | rfl
      · exact Or.inl h
      · exact Or.inr (by simp only; omega)
    · exact Or.inr (by omega)

/-- Moving bytes to where they stand changes nothing (R101: `CONS = 0`). -/
theorem Memory.moveDown_zero {m : Memory} (hm : m.wf = true) (j k : Nat) : m.moveDown 0 j k = m := by
  refine Memory.ext_read (Memory.wf_moveDown hm _ _ _) hm fun a => ?_
  rw [Memory.read_moveDown hm]
  simp

@[simp] theorem Memory.length_readList (m : Memory) (o n : Nat) : (m.readList o n).length = n := by
  simp [Memory.readList]

@[simp] theorem Memory.getElem_readList (m : Memory) (o n j : Nat) (h : j < (m.readList o n).length) :
    (m.readList o n)[j] = m.read (o + j) := by
  simp [Memory.readList]

@[simp] theorem Memory.getElem_window (m : Memory) (p k : Nat) (h : k < 25) : (m.window p)[k] = m.read (p + k) := by
  simp [Memory.window]

@[simp] theorem Memory.get_window (m : Memory) (p : Nat) (k : Fin 25) : (m.window p).get k = m.read (p + k.val) := by
  rw [Vector.get_eq_getElem, Memory.getElem_window]

/-- Reset memory has the canonical form. -/
theorem State.reset_buf_wf : State.reset.buf.wf = true := rfl

end Sys2Proof.Machine
end

