-- ==== Sys2Proof/Laws/State.lean ====
section
/-! SUPPORT. One lemma per field per update of the state, so that no later proof unfolds a record update; where an update
is conditional, one lemma per field it leaves alone. -/

namespace Sys2Proof.Machine

@[simp] theorem State.clearBuffer_cap (s : State) : (s.clearBuffer).cap = s.cap := rfl
@[simp] theorem State.clearBuffer_buf (s : State) : (s.clearBuffer).buf = Memory.cleared := rfl
@[simp] theorem State.clearBuffer_cons (s : State) : (s.clearBuffer).cons = 0 := rfl
@[simp] theorem State.clearBuffer_app (s : State) : (s.clearBuffer).app = 0 := rfl
@[simp] theorem State.clearBuffer_flc (s : State) : (s.clearBuffer).flc = s.flc := rfl
@[simp] theorem State.clearBuffer_phase (s : State) : (s.clearBuffer).phase = s.phase := rfl
@[simp] theorem State.clearBuffer_encOut (s : State) : (s.clearBuffer).encOut = s.encOut := rfl
@[simp] theorem State.clearBuffer_recOut (s : State) : (s.clearBuffer).recOut = s.recOut := rfl
@[simp] theorem State.clearBuffer_flCount (s : State) : (s.clearBuffer).flCount = s.flCount := rfl
@[simp] theorem State.clearBuffer_requests (s : State) : (s.clearBuffer).requests = s.requests := rfl
@[simp] theorem State.clearBuffer_turns (s : State) : (s.clearBuffer).turns = s.turns := rfl
@[simp] theorem State.clearBuffer_ready (s : State) : (s.clearBuffer).ready = s.ready := rfl

@[simp] theorem State.append_cap (s : State) (b : List Byte) : (s.append b).cap = s.cap := rfl
@[simp] theorem State.append_buf (s : State) (b : List Byte) : (s.append b).buf = s.buf.writeList s.app b := rfl
@[simp] theorem State.append_cons (s : State) (b : List Byte) : (s.append b).cons = s.cons := rfl
@[simp] theorem State.append_app (s : State) (b : List Byte) : (s.append b).app = s.app + b.length := rfl
@[simp] theorem State.append_flc (s : State) (b : List Byte) : (s.append b).flc = s.flc := rfl
@[simp] theorem State.append_phase (s : State) (b : List Byte) : (s.append b).phase = s.phase := rfl
@[simp] theorem State.append_encOut (s : State) (b : List Byte) : (s.append b).encOut = s.encOut := rfl
@[simp] theorem State.append_recOut (s : State) (b : List Byte) : (s.append b).recOut = s.recOut := rfl
@[simp] theorem State.append_flCount (s : State) (b : List Byte) : (s.append b).flCount = s.flCount := rfl
@[simp] theorem State.append_requests (s : State) (b : List Byte) : (s.append b).requests = s.requests := rfl
@[simp] theorem State.append_turns (s : State) (b : List Byte) : (s.append b).turns = s.turns := rfl
@[simp] theorem State.append_ready (s : State) (b : List Byte) : (s.append b).ready = s.ready := rfl

@[simp] theorem State.countAt_cap (s : State) (p : Nat) (last : Option Nat) : (s.countAt p last).cap = s.cap := rfl
@[simp] theorem State.countAt_buf (s : State) (p : Nat) (last : Option Nat) : (s.countAt p last).buf = s.buf := rfl
@[simp] theorem State.countAt_cons (s : State) (p : Nat) (last : Option Nat) : (s.countAt p last).cons = s.cons := rfl
@[simp] theorem State.countAt_app (s : State) (p : Nat) (last : Option Nat) : (s.countAt p last).app = s.app := rfl
@[simp] theorem State.countAt_flc (s : State) (p : Nat) (last : Option Nat) : (s.countAt p last).flc = countFrame s.flc (recordAt s.buf p) := rfl
@[simp] theorem State.countAt_phase (s : State) (p : Nat) (last : Option Nat) : (s.countAt p last).phase = .emit p last (recordAt s.buf p) := rfl
@[simp] theorem State.countAt_encOut (s : State) (p : Nat) (last : Option Nat) : (s.countAt p last).encOut = s.encOut := rfl
@[simp] theorem State.countAt_recOut (s : State) (p : Nat) (last : Option Nat) : (s.countAt p last).recOut = s.recOut := rfl
@[simp] theorem State.countAt_flCount (s : State) (p : Nat) (last : Option Nat) : (s.countAt p last).flCount = s.flCount := rfl
@[simp] theorem State.countAt_requests (s : State) (p : Nat) (last : Option Nat) : (s.countAt p last).requests = s.requests := rfl
@[simp] theorem State.countAt_turns (s : State) (p : Nat) (last : Option Nat) : (s.countAt p last).turns = s.turns := rfl
@[simp] theorem State.countAt_ready (s : State) (p : Nat) (last : Option Nat) : (s.countAt p last).ready = s.ready := rfl

@[simp] theorem State.deliver_cap (s : State) (p : Nat) (rec : DecRecord) : (s.deliver p rec).cap = s.cap := rfl
@[simp] theorem State.deliver_buf (s : State) (p : Nat) (rec : DecRecord) : (s.deliver p rec).buf = s.buf := rfl
@[simp] theorem State.deliver_cons (s : State) (p : Nat) (rec : DecRecord) : (s.deliver p rec).cons = s.cons := rfl
@[simp] theorem State.deliver_app (s : State) (p : Nat) (rec : DecRecord) : (s.deliver p rec).app = s.app := rfl
@[simp] theorem State.deliver_flc (s : State) (p : Nat) (rec : DecRecord) : (s.deliver p rec).flc = s.flc := rfl
@[simp] theorem State.deliver_phase (s : State) (p : Nat) (rec : DecRecord) : (s.deliver p rec).phase = .scan (p + frameSize) (some (p + frameSize)) := rfl
@[simp] theorem State.deliver_encOut (s : State) (p : Nat) (rec : DecRecord) : (s.deliver p rec).encOut = s.encOut := rfl
@[simp] theorem State.deliver_recOut (s : State) (p : Nat) (rec : DecRecord) : (s.deliver p rec).recOut = s.recOut ++ [rec] := rfl
@[simp] theorem State.deliver_flCount (s : State) (p : Nat) (rec : DecRecord) : (s.deliver p rec).flCount = s.flCount := rfl
@[simp] theorem State.deliver_requests (s : State) (p : Nat) (rec : DecRecord) : (s.deliver p rec).requests = s.requests := rfl
@[simp] theorem State.deliver_turns (s : State) (p : Nat) (rec : DecRecord) : (s.deliver p rec).turns = s.turns := rfl
@[simp] theorem State.deliver_ready (s : State) (p : Nat) (rec : DecRecord) : (s.deliver p rec).ready = s.ready := rfl

@[simp] theorem State.recreate_cap (s : State) : (s.recreate).cap = s.cap := rfl
@[simp] theorem State.recreate_buf (s : State) : (s.recreate).buf = Memory.cleared := rfl
@[simp] theorem State.recreate_cons (s : State) : (s.recreate).cons = 0 := rfl
@[simp] theorem State.recreate_app (s : State) : (s.recreate).app = 0 := rfl
@[simp] theorem State.recreate_flc (s : State) : (s.recreate).flc = 0#32 := rfl
@[simp] theorem State.recreate_phase (s : State) : (s.recreate).phase = s.phase := rfl
@[simp] theorem State.recreate_encOut (s : State) : (s.recreate).encOut = s.encOut := rfl
@[simp] theorem State.recreate_recOut (s : State) : (s.recreate).recOut = [] := rfl
@[simp] theorem State.recreate_flCount (s : State) : (s.recreate).flCount = s.flCount := rfl
@[simp] theorem State.recreate_requests (s : State) : (s.recreate).requests = s.requests := rfl
@[simp] theorem State.recreate_turns (s : State) : (s.recreate).turns = s.turns := rfl
@[simp] theorem State.recreate_ready (s : State) : (s.recreate).ready = s.ready := rfl

@[simp] theorem State.withFetchWord_cap (s : State) (nbits w : Nat) : (s.withFetchWord nbits w).cap = s.cap := rfl
@[simp] theorem State.withFetchWord_buf (s : State) (nbits w : Nat) : (s.withFetchWord nbits w).buf = s.buf := rfl
@[simp] theorem State.withFetchWord_cons (s : State) (nbits w : Nat) : (s.withFetchWord nbits w).cons = s.cons := rfl
@[simp] theorem State.withFetchWord_app (s : State) (nbits w : Nat) : (s.withFetchWord nbits w).app = s.app := rfl
@[simp] theorem State.withFetchWord_flc (s : State) (nbits w : Nat) : (s.withFetchWord nbits w).flc = s.flc := rfl
@[simp] theorem State.withFetchWord_phase (s : State) (nbits w : Nat) : (s.withFetchWord nbits w).phase = s.phase := rfl
@[simp] theorem State.withFetchWord_encOut (s : State) (nbits w : Nat) : (s.withFetchWord nbits w).encOut = s.encOut := rfl
@[simp] theorem State.withFetchWord_recOut (s : State) (nbits w : Nat) : (s.withFetchWord nbits w).recOut = s.recOut := rfl
@[simp] theorem State.withFetchWord_flCount (s : State) (nbits w : Nat) : (s.withFetchWord nbits w).flCount = s.flCount := rfl
@[simp] theorem State.withFetchWord_requests (s : State) (nbits w : Nat) : (s.withFetchWord nbits w).requests = tableBytes nbits w ++ s.requests := rfl
@[simp] theorem State.withFetchWord_turns (s : State) (nbits w : Nat) : (s.withFetchWord nbits w).turns = .request :: s.turns := rfl
@[simp] theorem State.withFetchWord_ready (s : State) (nbits w : Nat) : (s.withFetchWord nbits w).ready = s.ready := rfl

@[simp] theorem State.overflowGuard_cap (s : State) (n : Nat) : (s.overflowGuard n).cap = s.cap := by
  unfold State.overflowGuard; split <;> rfl
@[simp] theorem State.overflowGuard_flc (s : State) (n : Nat) : (s.overflowGuard n).flc = s.flc := by
  unfold State.overflowGuard; split <;> rfl
@[simp] theorem State.overflowGuard_phase (s : State) (n : Nat) : (s.overflowGuard n).phase = s.phase := by
  unfold State.overflowGuard; split <;> rfl
@[simp] theorem State.overflowGuard_encOut (s : State) (n : Nat) : (s.overflowGuard n).encOut = s.encOut := by
  unfold State.overflowGuard; split <;> rfl
@[simp] theorem State.overflowGuard_recOut (s : State) (n : Nat) : (s.overflowGuard n).recOut = s.recOut := by
  unfold State.overflowGuard; split <;> rfl
@[simp] theorem State.overflowGuard_flCount (s : State) (n : Nat) : (s.overflowGuard n).flCount = s.flCount := by
  unfold State.overflowGuard; split <;> rfl
@[simp] theorem State.overflowGuard_requests (s : State) (n : Nat) : (s.overflowGuard n).requests = s.requests := by
  unfold State.overflowGuard; split <;> rfl
@[simp] theorem State.overflowGuard_turns (s : State) (n : Nat) : (s.overflowGuard n).turns = s.turns := by
  unfold State.overflowGuard; split <;> rfl
@[simp] theorem State.overflowGuard_ready (s : State) (n : Nat) : (s.overflowGuard n).ready = s.ready := by
  unfold State.overflowGuard; split <;> rfl

@[simp] theorem State.advanceCons_cap (s : State) (last : Option Nat) : (s.advanceCons last).cap = s.cap := by
  cases last <;> rfl
@[simp] theorem State.advanceCons_buf (s : State) (last : Option Nat) : (s.advanceCons last).buf = s.buf := by
  cases last <;> rfl
@[simp] theorem State.advanceCons_app (s : State) (last : Option Nat) : (s.advanceCons last).app = s.app := by
  cases last <;> rfl
@[simp] theorem State.advanceCons_flc (s : State) (last : Option Nat) : (s.advanceCons last).flc = s.flc := by
  cases last <;> rfl
@[simp] theorem State.advanceCons_phase (s : State) (last : Option Nat) : (s.advanceCons last).phase = s.phase := by
  cases last <;> rfl
@[simp] theorem State.advanceCons_encOut (s : State) (last : Option Nat) : (s.advanceCons last).encOut = s.encOut := by
  cases last <;> rfl
@[simp] theorem State.advanceCons_recOut (s : State) (last : Option Nat) : (s.advanceCons last).recOut = s.recOut := by
  cases last <;> rfl
@[simp] theorem State.advanceCons_flCount (s : State) (last : Option Nat) : (s.advanceCons last).flCount = s.flCount := by
  cases last <;> rfl
@[simp] theorem State.advanceCons_requests (s : State) (last : Option Nat) : (s.advanceCons last).requests = s.requests := by
  cases last <;> rfl
@[simp] theorem State.advanceCons_turns (s : State) (last : Option Nat) : (s.advanceCons last).turns = s.turns := by
  cases last <;> rfl
@[simp] theorem State.advanceCons_ready (s : State) (last : Option Nat) : (s.advanceCons last).ready = s.ready := by
  cases last <;> rfl

@[simp] theorem State.compact_cap (s : State) : (s.compact).cap = s.cap := by
  unfold State.compact; split <;> rfl
@[simp] theorem State.compact_flc (s : State) : (s.compact).flc = s.flc := by
  unfold State.compact; split <;> rfl
@[simp] theorem State.compact_phase (s : State) : (s.compact).phase = s.phase := by
  unfold State.compact; split <;> rfl
@[simp] theorem State.compact_encOut (s : State) : (s.compact).encOut = s.encOut := by
  unfold State.compact; split <;> rfl
@[simp] theorem State.compact_recOut (s : State) : (s.compact).recOut = s.recOut := by
  unfold State.compact; split <;> rfl
@[simp] theorem State.compact_flCount (s : State) : (s.compact).flCount = s.flCount := by
  unfold State.compact; split <;> rfl
@[simp] theorem State.compact_requests (s : State) : (s.compact).requests = s.requests := by
  unfold State.compact; split <;> rfl
@[simp] theorem State.compact_turns (s : State) : (s.compact).turns = s.turns := by
  unfold State.compact; split <;> rfl
@[simp] theorem State.compact_ready (s : State) : (s.compact).ready = s.ready := by
  unfold State.compact; split <;> rfl

@[simp] theorem State.resetIfConsumed_cap (s : State) : (s.resetIfConsumed).cap = s.cap := by
  unfold State.resetIfConsumed; split <;> rfl
@[simp] theorem State.resetIfConsumed_buf (s : State) : (s.resetIfConsumed).buf = s.buf := by
  unfold State.resetIfConsumed; split <;> rfl
@[simp] theorem State.resetIfConsumed_flc (s : State) : (s.resetIfConsumed).flc = s.flc := by
  unfold State.resetIfConsumed; split <;> rfl
@[simp] theorem State.resetIfConsumed_phase (s : State) : (s.resetIfConsumed).phase = s.phase := by
  unfold State.resetIfConsumed; split <;> rfl
@[simp] theorem State.resetIfConsumed_encOut (s : State) : (s.resetIfConsumed).encOut = s.encOut := by
  unfold State.resetIfConsumed; split <;> rfl
@[simp] theorem State.resetIfConsumed_recOut (s : State) : (s.resetIfConsumed).recOut = s.recOut := by
  unfold State.resetIfConsumed; split <;> rfl
@[simp] theorem State.resetIfConsumed_flCount (s : State) : (s.resetIfConsumed).flCount = s.flCount := by
  unfold State.resetIfConsumed; split <;> rfl
@[simp] theorem State.resetIfConsumed_requests (s : State) : (s.resetIfConsumed).requests = s.requests := by
  unfold State.resetIfConsumed; split <;> rfl
@[simp] theorem State.resetIfConsumed_turns (s : State) : (s.resetIfConsumed).turns = s.turns := by
  unfold State.resetIfConsumed; split <;> rfl
@[simp] theorem State.resetIfConsumed_ready (s : State) : (s.resetIfConsumed).ready = s.ready := by
  unfold State.resetIfConsumed; split <;> rfl

@[simp] theorem State.admitBatch_cap (s : State) (b : List Byte) : (s.admitBatch b).cap = s.cap := by
  simp [State.admitBatch]
@[simp] theorem State.admitBatch_flc (s : State) (b : List Byte) : (s.admitBatch b).flc = s.flc := by
  simp [State.admitBatch]
@[simp] theorem State.admitBatch_encOut (s : State) (b : List Byte) : (s.admitBatch b).encOut = s.encOut := by
  simp [State.admitBatch]
@[simp] theorem State.admitBatch_recOut (s : State) (b : List Byte) : (s.admitBatch b).recOut = s.recOut := by
  simp [State.admitBatch]
@[simp] theorem State.admitBatch_flCount (s : State) (b : List Byte) : (s.admitBatch b).flCount = s.flCount := by
  simp [State.admitBatch]
@[simp] theorem State.admitBatch_requests (s : State) (b : List Byte) : (s.admitBatch b).requests = s.requests := by
  simp [State.admitBatch]
@[simp] theorem State.admitBatch_turns (s : State) (b : List Byte) : (s.admitBatch b).turns = s.turns := by
  simp [State.admitBatch]
@[simp] theorem State.admitBatch_ready (s : State) (b : List Byte) : (s.admitBatch b).ready = s.ready := by
  simp [State.admitBatch]

@[simp] theorem State.finalize_cap (s : State) (last : Option Nat) : (s.finalize last).cap = s.cap := by
  simp [State.finalize]
@[simp] theorem State.finalize_flc (s : State) (last : Option Nat) : (s.finalize last).flc = s.flc := by
  simp [State.finalize]
@[simp] theorem State.finalize_encOut (s : State) (last : Option Nat) : (s.finalize last).encOut = s.encOut := by
  simp [State.finalize]
@[simp] theorem State.finalize_recOut (s : State) (last : Option Nat) : (s.finalize last).recOut = s.recOut := by
  simp [State.finalize]
@[simp] theorem State.finalize_flCount (s : State) (last : Option Nat) : (s.finalize last).flCount = s.flCount := by
  simp [State.finalize]
@[simp] theorem State.finalize_requests (s : State) (last : Option Nat) : (s.finalize last).requests = s.requests := by
  simp [State.finalize]
@[simp] theorem State.finalize_turns (s : State) (last : Option Nat) : (s.finalize last).turns = s.turns := by
  simp [State.finalize]
@[simp] theorem State.finalize_ready (s : State) (last : Option Nat) : (s.finalize last).ready = s.ready := by
  simp [State.finalize]

@[simp] theorem State.finalize_phase (s : State) (last : Option Nat) : (s.finalize last).phase = .idle := rfl

@[simp] theorem State.withEncOut_cap (s : State) (F : Frame) : (s.withEncOut F).cap = s.cap := rfl
@[simp] theorem State.withEncOut_buf (s : State) (F : Frame) : (s.withEncOut F).buf = s.buf := rfl
@[simp] theorem State.withEncOut_cons (s : State) (F : Frame) : (s.withEncOut F).cons = s.cons := rfl
@[simp] theorem State.withEncOut_app (s : State) (F : Frame) : (s.withEncOut F).app = s.app := rfl
@[simp] theorem State.withEncOut_flc (s : State) (F : Frame) : (s.withEncOut F).flc = s.flc := rfl
@[simp] theorem State.withEncOut_phase (s : State) (F : Frame) : (s.withEncOut F).phase = s.phase := rfl
@[simp] theorem State.withEncOut_encOut (s : State) (F : Frame) : (s.withEncOut F).encOut = s.encOut ++ [F] := rfl
@[simp] theorem State.withEncOut_recOut (s : State) (F : Frame) : (s.withEncOut F).recOut = s.recOut := rfl
@[simp] theorem State.withEncOut_flCount (s : State) (F : Frame) : (s.withEncOut F).flCount = s.flCount := rfl
@[simp] theorem State.withEncOut_requests (s : State) (F : Frame) : (s.withEncOut F).requests = s.requests := rfl
@[simp] theorem State.withEncOut_turns (s : State) (F : Frame) : (s.withEncOut F).turns = s.turns := rfl
@[simp] theorem State.withEncOut_ready (s : State) (F : Frame) : (s.withEncOut F).ready = s.ready := rfl

@[simp] theorem State.withFlCount_cap (s : State) (c : Count) : (s.withFlCount c).cap = s.cap := rfl
@[simp] theorem State.withFlCount_buf (s : State) (c : Count) : (s.withFlCount c).buf = s.buf := rfl
@[simp] theorem State.withFlCount_cons (s : State) (c : Count) : (s.withFlCount c).cons = s.cons := rfl
@[simp] theorem State.withFlCount_app (s : State) (c : Count) : (s.withFlCount c).app = s.app := rfl
@[simp] theorem State.withFlCount_flc (s : State) (c : Count) : (s.withFlCount c).flc = s.flc := rfl
@[simp] theorem State.withFlCount_phase (s : State) (c : Count) : (s.withFlCount c).phase = s.phase := rfl
@[simp] theorem State.withFlCount_encOut (s : State) (c : Count) : (s.withFlCount c).encOut = s.encOut := rfl
@[simp] theorem State.withFlCount_recOut (s : State) (c : Count) : (s.withFlCount c).recOut = s.recOut := rfl
@[simp] theorem State.withFlCount_flCount (s : State) (c : Count) : (s.withFlCount c).flCount = s.flCount ++ [c] := rfl
@[simp] theorem State.withFlCount_requests (s : State) (c : Count) : (s.withFlCount c).requests = s.requests := rfl
@[simp] theorem State.withFlCount_turns (s : State) (c : Count) : (s.withFlCount c).turns = s.turns := rfl
@[simp] theorem State.withFlCount_ready (s : State) (c : Count) : (s.withFlCount c).ready = s.ready := rfl

end Sys2Proof.Machine
end

