-- ==== Sys2Proof/Laws/Sync.lean ====
section
/-! SUPPORT. What the synchronizer's operations do: the micro-step's cases, the greedy scan's equations, and where a run
of micro-steps ends. -/

namespace Sys2Proof.Machine

/-! ### The micro-step, said once -/

/-- What a micro-step that answers a next state did. -/
theorem microStep_cases {s t : State} (h : microStep s = .next t) :
    (s.phase = .idle ∧ t = s) ∨
    (∃ p last rec, s.phase = .emit p last rec ∧ ((s.ready = true ∧ t = s.deliver p rec) ∨ (s.ready = false ∧ t = s))) ∨
    (∃ p last, s.phase = .scan p last ∧ s.app ≤ s.cap ∧
      ((p + frameSize ≤ s.app ∧ isFrameAt s.buf p = true ∧ t = s.countAt p last) ∨
       (p + frameSize ≤ s.app ∧ isFrameAt s.buf p = false ∧ t = { s with phase := .scan (p + 1) last }) ∨
       (s.app < p + frameSize ∧ t = s.finalize last))) := by
  unfold microStep at h
  split at h
  · next hp =>
    cases h
    exact .inl ⟨hp, rfl⟩
  · next p last rec hp =>
    split at h
    · next hr =>
      cases h
      exact .inr (.inl ⟨p, last, rec, hp, .inl ⟨hr, rfl⟩⟩)
    · next hr =>
      cases h
      exact .inr (.inl ⟨p, last, rec, hp, .inr ⟨by simpa using hr, rfl⟩⟩)
  · next p last hp =>
    split at h
    · next hcap =>
      cases h
      refine .inr (.inr ⟨p, last, hp, hcap, ?_⟩)
      unfold State.scanStep
      by_cases hw : p + frameSize ≤ s.app
      · by_cases hm : isFrameAt s.buf p = true
        · exact .inl ⟨hw, hm, by rw [if_pos hw, if_pos hm]⟩
        · exact .inr (.inl ⟨hw, by simpa using hm, by rw [if_pos hw, if_neg hm]⟩)
      · exact .inr (.inr ⟨by omega, by rw [if_neg hw]⟩)
    · cases h

/-- No micro-step is refused. -/
theorem microStep_not_refused (s : State) (r : Refusal) : microStep s ≠ .refused r := by
  unfold microStep
  split
  · simp
  · split <;> simp
  · split <;> simp

/-- A micro-step faults only where APP exceeds CAP. -/
theorem microStep_fault {s : State} {f : Fault} (h : microStep s = .fault f) : s.cap < s.app := by
  unfold microStep at h
  split at h
  · cases h
  · split at h <;> cases h
  · split at h
    · cases h
    · omega

theorem microStep_idle {s : State} (h : s.phase = .idle) : microStep s = .next s := by
  simp [microStep, h]

theorem microStep_emit_ready {s : State} {p last rec} (h : s.phase = .emit p last rec) (hr : s.ready = true) :
    microStep s = .next (s.deliver p rec) := by
  simp [microStep, h, hr]

theorem microStep_emit_held {s : State} {p last rec} (h : s.phase = .emit p last rec) (hr : s.ready = false) :
    microStep s = .next s := by
  simp [microStep, h, hr]

theorem microStep_scan {s : State} {p last} (h : s.phase = .scan p last) (hc : s.app ≤ s.cap) :
    microStep s = .next (s.scanStep p last) := by
  simp [microStep, h, hc]

theorem microStep_scan_fault {s : State} {p last} (h : s.phase = .scan p last) (hc : s.cap < s.app) :
    microStep s = .fault .cursorBeyondCapacity := by
  simp [microStep, h, Nat.not_le.2 hc]

theorem scanStep_match {s : State} {p : Nat} (last : Option Nat) (hw : p + frameSize ≤ s.app)
    (hm : isFrameAt s.buf p = true) : s.scanStep p last = s.countAt p last := by
  rw [State.scanStep, if_pos hw, if_pos hm]

theorem scanStep_mismatch {s : State} {p : Nat} (last : Option Nat) (hw : p + frameSize ≤ s.app)
    (hm : isFrameAt s.buf p = false) : s.scanStep p last = { s with phase := .scan (p + 1) last } := by
  rw [State.scanStep, if_pos hw, if_neg (by simp [hm])]

theorem scanStep_done {s : State} {p : Nat} (last : Option Nat) (hw : s.app < p + frameSize) :
    s.scanStep p last = s.finalize last := by
  rw [State.scanStep, if_neg (by omega)]

/-! ### The greedy scan's equations -/

theorem greedyFrom_of_lt {test : Nat → Bool} {stop q : Nat} (k : Nat) (h : stop < q + frameSize) :
    greedyFrom test stop k q = [] := by
  cases k with
  | zero => rfl
  | succ k => rw [greedyFrom, if_neg (by omega)]

/-- Fuel that reaches past the last candidate is enough: more changes nothing. -/
theorem greedyFrom_fuel (test : Nat → Bool) (stop : Nat) (k k' q : Nat) (h : stop < k + q + 24) (h' : stop < k' + q + 24) :
    greedyFrom test stop k q = greedyFrom test stop k' q := by
  induction k generalizing k' q with
  | zero => rw [greedyFrom_of_lt _ (by simp only [frameSize]; omega), greedyFrom_of_lt _ (by simp only [frameSize]; omega)]
  | succ k ih =>
    cases k' with
    | zero => rw [greedyFrom_of_lt _ (by simp only [frameSize]; omega), greedyFrom_of_lt _ (by simp only [frameSize]; omega)]
    | succ k' =>
      have h25 : frameSize = 25 := rfl
      simp only [greedyFrom]
      rw [ih k' (q + frameSize) (by omega) (by omega), ih k' (q + 1) (by omega) (by omega)]

/-- The greedy scan with enough fuel for any start. -/
def greedyAt (test : Nat → Bool) (stop q : Nat) : List Nat := greedyFrom test stop (stop + 1) q

theorem greedyAt_eq_from (test : Nat → Bool) (stop k q : Nat) (h : stop < k + q + 24) :
    greedyFrom test stop k q = greedyAt test stop q := greedyFrom_fuel _ _ _ _ _ h (by omega)

theorem greedyAt_done {test : Nat → Bool} {stop q : Nat} (h : stop < q + frameSize) : greedyAt test stop q = [] :=
  greedyFrom_of_lt _ h

theorem greedyAt_match {test : Nat → Bool} {stop q : Nat} (h : q + frameSize ≤ stop) (ht : test q = true) :
    greedyAt test stop q = q :: greedyAt test stop (q + frameSize) := by
  rw [greedyAt, greedyFrom, if_pos h, if_pos ht, greedyAt_eq_from _ _ _ _ (by omega)]

theorem greedyAt_mismatch {test : Nat → Bool} {stop q : Nat} (h : q + frameSize ≤ stop) (ht : test q = false) :
    greedyAt test stop q = greedyAt test stop (q + 1) := by
  rw [greedyAt, greedyFrom, if_pos h, if_neg (by simp [ht]), greedyAt_eq_from _ _ _ _ (by omega)]

/-- Induction over a scan: it ends, or it skips one byte, or it skips a frame. -/
theorem scan_induction (stop : Nat) {P : Nat → Prop} (done : ∀ q, stop < q + frameSize → P q)
    (next : ∀ q, q + frameSize ≤ stop → P (q + 1) → P (q + frameSize) → P q) (q : Nat) : P q := by
  by_cases h : stop < q + frameSize
  · exact done q h
  · have h1 : stop - (q + 1) < stop - q := by simp only [frameSize] at h; omega
    have h2 : stop - (q + frameSize) < stop - q := by simp only [frameSize] at h ⊢; omega
    exact next q (by omega) (scan_induction stop done next (q + 1)) (scan_induction stop done next (q + frameSize))
termination_by stop - q

/-! ### Where a run of micro-steps ends -/

/-- The end of the last match after the positions `qs` have matched, `last` before them. -/
def endOf (last : Option Nat) (qs : List Nat) : Option Nat := (qs.getLast?.map fun q => q + frameSize).or last

@[simp] theorem endOf_nil (last : Option Nat) : endOf last [] = last := rfl

@[simp] theorem endOf_none (qs : List Nat) : endOf none qs = qs.getLast?.map fun q => q + frameSize := by
  simp [endOf]

theorem endOf_cons (last : Option Nat) (q : Nat) (qs : List Nat) :
    endOf last (q :: qs) = endOf (some (q + frameSize)) qs := by
  cases qs with
  | nil => rfl
  | cons r rs =>
    obtain ⟨x, hx⟩ : ∃ x, (r :: rs).getLast? = some x := ⟨_, List.getLast?_eq_some_getLast (List.cons_ne_nil r rs)⟩
    simp only [endOf, List.getLast?_cons_cons, hx, Option.map_some, Option.some_or]

/-- The state with the records at `qs` counted and emitted. -/
def State.emitted (s : State) (qs : List Nat) : State :=
  { s with
    flc := s.flc + BitVec.ofNat 32 (countLost (qs.map (recordAt s.buf)))
    recOut := s.recOut ++ qs.map (recordAt s.buf) }

@[simp] theorem State.emitted_nil (s : State) : s.emitted [] = s := by
  simp [State.emitted, countLost]

/-- Counting a record and then the others is counting them all. -/
theorem countFrame_add (c : Count) (rec : DecRecord) (recs : List DecRecord) :
    countFrame c rec + BitVec.ofNat 32 (countLost recs) = c + BitVec.ofNat 32 (countLost (rec :: recs)) := by
  unfold countFrame countLost
  cases h : rec.frameLost
  · simp [h]
  · simp only [h, if_true, List.countP_cons]
    rw [BitVec.add_assoc, Nat.add_comm, BitVec.ofNat_add]

/-- The finalized state does not depend on where the synchronizer stood. -/
theorem finalize_phase (s : State) (ph : Phase) (last : Option Nat) :
    ({ s with phase := ph } : State).finalize last = s.finalize last := by
  by_cases h : s.cap - s.app < frameSize <;> cases last <;>
    simp only [State.finalize, State.advanceCons, State.compact, h, if_true, if_false, State.resetIfConsumed] <;>
    split <;> rfl

/-- A run of micro-steps from a scan, with a ready consumer and enough fuel: every match of the greedy scan is counted
and emitted, and the PUSH is finalized. -/
theorem runSync_scan (s : State) (p : Nat) (last : Option Nat) (fuel : Nat) (hc : s.app ≤ s.cap) (hr : s.ready = true)
    (hf : 2 * (s.app - p) + 1 ≤ fuel) (hp : s.phase = .scan p last) :
    runSync fuel s =
      .next ((s.emitted (greedyAt (isFrameAt s.buf) s.app p)).finalize
        (endOf last (greedyAt (isFrameAt s.buf) s.app p))) := by
  generalize hn : s.app = stop at *
  induction p using scan_induction stop generalizing s last fuel with
  | done p h =>
    obtain ⟨fuel, rfl⟩ : ∃ k, fuel = k + 1 := ⟨fuel - 1, by omega⟩
    have hm := microStep_scan hp (by omega)
    rw [scanStep_done _ (by omega)] at hm
    rw [runSync, if_neg (by simp [State.settled, hp]), hm]
    simp only [greedyAt_done h, State.emitted_nil, endOf_nil]
    cases fuel with
    | zero => rfl
    | succ k => rw [runSync, if_pos (by simp [State.settled])]
  | next p h ih1 ih25 =>
    simp only [frameSize] at h
    obtain ⟨fuel, rfl⟩ : ∃ k, fuel = k + 2 := ⟨fuel - 2, by omega⟩
    have hm := microStep_scan hp (by omega)
    rw [runSync, if_neg (by simp [State.settled, hp]), hm]
    cases ht : isFrameAt s.buf p with
    | false =>
      rw [scanStep_mismatch _ (by simp only [frameSize]; omega) ht]
      simp only
      rw [ih1 { s with phase := .scan (p + 1) last } last (fuel + 1) (hc := hc) (hr := hr) (hf := by omega) (hp := rfl)
        (hn := hn), greedyAt_mismatch (by simp only [frameSize]; omega) ht]
      exact congrArg Host.Outcome.next (finalize_phase (s.emitted _) (.scan (p + 1) last) _)
    | true =>
      rw [scanStep_match _ (by simp only [frameSize]; omega) ht]
      simp only
      rw [runSync, if_neg (by simp [State.settled, hr]),
        microStep_emit_ready (s := s.countAt p last) (State.countAt_phase s p last) hr]
      simp only
      rw [ih25 ((s.countAt p last).deliver p (recordAt s.buf p)) (some (p + frameSize)) fuel (hc := hc) (hr := hr)
          (hf := by simp only [frameSize]; omega) (hp := rfl) (hn := hn),
        greedyAt_match (by simp only [frameSize]; omega) ht, endOf_cons]
      refine congrArg Host.Outcome.next (Eq.trans (congrArg (fun u : State => u.finalize _) ?_)
        (finalize_phase (s.emitted _) (.scan (p + frameSize) (some (p + frameSize))) _))
      simp [State.emitted, State.deliver, State.countAt, countFrame_add]

/-- A run of micro-steps from a scan, with a consumer that is not ready and enough fuel: it holds at the first match,
counted and not emitted, or finalizes where nothing matches. -/
theorem runSync_scan_held (s : State) (p : Nat) (last : Option Nat) (fuel : Nat) (hc : s.app ≤ s.cap)
    (hr : s.ready = false) (hf : 2 * (s.app - p) + 1 ≤ fuel) (hp : s.phase = .scan p last) :
    runSync fuel s =
      .next (match greedyAt (isFrameAt s.buf) s.app p with
        | [] => s.finalize last
        | q :: _ => s.countAt q last) := by
  generalize hn : s.app = stop at *
  induction p using scan_induction stop generalizing s fuel with
  | done p h =>
    obtain ⟨fuel, rfl⟩ : ∃ k, fuel = k + 1 := ⟨fuel - 1, by omega⟩
    have hm := microStep_scan hp (by omega)
    rw [scanStep_done _ (by omega)] at hm
    rw [runSync, if_neg (by simp [State.settled, hp]), hm, greedyAt_done h]
    cases fuel with
    | zero => rfl
    | succ k => exact if_pos (by simp [State.settled])
  | next p h ih1 _ =>
    simp only [frameSize] at h
    obtain ⟨fuel, rfl⟩ : ∃ k, fuel = k + 2 := ⟨fuel - 2, by omega⟩
    have hm := microStep_scan hp (by omega)
    rw [runSync, if_neg (by simp [State.settled, hp]), hm]
    cases ht : isFrameAt s.buf p with
    | false =>
      rw [scanStep_mismatch _ (by simp only [frameSize]; omega) ht]
      simp only
      rw [ih1 { s with phase := .scan (p + 1) last } (fuel + 1) (hc := hc) (hr := hr) (hf := by omega) (hp := rfl)
        (hn := hn), greedyAt_mismatch (by simp only [frameSize]; omega) ht]
      refine congrArg Host.Outcome.next ?_
      show (match greedyAt (isFrameAt s.buf) stop (p + 1) with
        | [] => ({ s with phase := .scan (p + 1) last } : State).finalize last
        | q :: _ => ({ s with phase := .scan (p + 1) last } : State).countAt q last) = _
      rw [finalize_phase]
      rfl
    | true =>
      rw [scanStep_match _ (by simp only [frameSize]; omega) ht, greedyAt_match (by simp only [frameSize]; omega) ht]
      exact if_pos (by simp [State.settled, hr])

/-- What every micro-step keeps, a run of them keeps. -/
theorem runSync_keeps {P : State → Prop} (keep : ∀ s t, P s → microStep s = .next t → P t) {k : Nat} {s t : State}
    (hs : P s) (h : runSync k s = .next t) : P t := by
  induction k generalizing s with
  | zero =>
    cases h
    exact hs
  | succ k ih =>
    rw [runSync] at h
    split at h
    · cases h
      exact hs
    · split at h
      · next u hu => exact ih (keep _ _ hs hu) h
      · cases h
      · cases h

/-- No run of micro-steps is refused. -/
theorem runSync_not_refused (k : Nat) (s : State) (r : Refusal) : runSync k s ≠ .refused r := by
  induction k generalizing s with
  | zero => simp [runSync]
  | succ k ih =>
    rw [runSync]
    split
    · simp
    · split
      · next u _ => exact ih u
      · simp
      · next q hq => exact absurd hq (microStep_not_refused _ _)

/-- Advancing CONS sets it to where the bytes are consumed up to (R100). -/
theorem advanceCons_eq (s : State) (last : Option Nat) : s.advanceCons last = { s with cons := s.consumedBy last } := by
  cases last <;> rfl

/-- APP after compaction never grows. -/
theorem compact_app_le (s : State) : s.compact.app ≤ s.app := by
  unfold State.compact
  split
  · simp
  · exact Nat.le_refl _

theorem resetIfConsumed_app_le (s : State) : s.resetIfConsumed.app ≤ s.app := by
  unfold State.resetIfConsumed
  split
  · simp
  · exact Nat.le_refl _

theorem finalize_app_le (s : State) (last : Option Nat) : (s.finalize last).app ≤ s.app := by
  have h := Nat.le_trans (resetIfConsumed_app_le (s.advanceCons last).compact) (compact_app_le (s.advanceCons last))
  simpa [State.finalize] using h

/-- A micro-step never moves APP up. -/
theorem microStep_app_le {s t : State} (h : microStep s = .next t) : t.app ≤ s.app := by
  rcases microStep_cases h with ⟨_, rfl⟩ | ⟨_, _, _, _, ⟨_, rfl⟩ | ⟨_, rfl⟩⟩ | ⟨_, _, _, _, ⟨_, _, rfl⟩ | ⟨_, _, rfl⟩ | ⟨_, rfl⟩⟩
  · exact Nat.le_refl _
  · exact Nat.le_refl _
  · exact Nat.le_refl _
  · exact Nat.le_refl _
  · exact Nat.le_refl _
  · exact finalize_app_le _ _

/-- The fields that no micro-step writes. -/
theorem microStep_frame {s t : State} (h : microStep s = .next t) :
    t.cap = s.cap ∧ t.encOut = s.encOut ∧ t.flCount = s.flCount ∧ t.requests = s.requests ∧ t.turns = s.turns ∧
      t.ready = s.ready := by
  rcases microStep_cases h with ⟨_, rfl⟩ | ⟨_, _, _, _, ⟨_, rfl⟩ | ⟨_, rfl⟩⟩ | ⟨_, _, _, _, ⟨_, _, rfl⟩ | ⟨_, _, rfl⟩ | ⟨_, rfl⟩⟩ <;>
    simp

/-- Where APP does not exceed CAP, a run of micro-steps answers a next state. -/
theorem runSync_next (k : Nat) {s : State} (h : s.app ≤ s.cap) : ∃ t, runSync k s = .next t := by
  induction k generalizing s with
  | zero => exact ⟨s, rfl⟩
  | succ k ih =>
    rw [runSync]
    split
    · exact ⟨s, rfl⟩
    · cases hm : microStep s with
      | next u => exact ih (by rw [(microStep_frame hm).1]; exact Nat.le_trans (microStep_app_le hm) h)
      | fault f => exact absurd (microStep_fault hm) (by omega)
      | refused r => exact absurd hm (microStep_not_refused _ _)

/-- After guard and append, APP does not exceed CAP (R90). -/
theorem admitBatch_app_le {s : State} {b : List Byte} (h : b.length ≤ s.cap) : (s.admitBatch b).app ≤ (s.admitBatch b).cap := by
  show ((s.overflowGuard b.length).append b).app ≤ ((s.overflowGuard b.length).append b).cap
  rw [State.append_app, State.append_cap, State.overflowGuard_cap]
  unfold State.overflowGuard
  split
  · simpa using h
  · omega

/-- What PUSH does, case by case (R87, R88, R104). -/
theorem execPush_cases (b : List Byte) (s : State) :
    (s.phase ≠ .idle ∧ execPush b s = .refused .overlappingPush) ∨
    (s.phase = .idle ∧ s.cap < b.length ∧ execPush b s = .refused .batchTooLong) ∨
    (s.phase = .idle ∧ b = [] ∧ execPush b s = .next s) ∨
    (s.phase = .idle ∧ b ≠ [] ∧ b.length ≤ s.cap ∧ s.turns ≠ [] ∧ execPush b s = .next (s.admitBatch b)) ∨
    (s.phase = .idle ∧ b ≠ [] ∧ b.length ≤ s.cap ∧ s.turns = [] ∧ execPush b s = syncRun (s.admitBatch b)) := by
  by_cases hp : s.phase = .idle
  · by_cases hl : s.cap < b.length
    · exact .inr (.inl ⟨hp, hl, by simp [execPush, hp, State.tooLong, hl]⟩)
    · by_cases hb : b = []
      · subst hb
        exact .inr (.inr (.inl ⟨hp, rfl, by simp [execPush, hp, State.tooLong]⟩))
      · by_cases ht : s.turns = []
        · exact .inr (.inr (.inr (.inr ⟨hp, hb, by omega, ht, by
            simp [execPush, hp, State.tooLong, hl, hb, continuePush, ht]⟩)))
        · exact .inr (.inr (.inr (.inl ⟨hp, hb, by omega, ht, by
            simp [execPush, hp, State.tooLong, hl, hb, continuePush, ht]⟩)))
  · exact .inl ⟨hp, by simp [execPush, hp]⟩

end Sys2Proof.Machine
end

