-- ==== Sys2Proof/Laws/Greedy.lean ====
section
/-! SUPPORT. The greedy scan (41_synchronizer.md R106): what its positions are, and how scans of the same bytes at other
offsets, with another test, or up to another end are related. -/

namespace Sys2Proof.Machine

/-- Every position of a scan lies between its start and its last candidate, and passes the test. -/
theorem greedyAt_bound {test : Nat → Bool} {stop q x : Nat} (hx : x ∈ greedyAt test stop q) :
    q ≤ x ∧ x + frameSize ≤ stop ∧ test x = true := by
  induction q using scan_induction stop with
  | done q h =>
    rw [greedyAt_done h] at hx
    cases hx
  | next q h ih1 ih25 =>
    cases ht : test q with
    | false =>
      rw [greedyAt_mismatch h ht] at hx
      obtain ⟨a, b, c⟩ := ih1 hx
      exact ⟨by omega, b, c⟩
    | true =>
      rw [greedyAt_match h ht] at hx
      rcases List.mem_cons.1 hx with rfl | hx
      · exact ⟨Nat.le_refl _, h, ht⟩
      · obtain ⟨a, b, c⟩ := ih25 hx
        exact ⟨by omega, b, c⟩

/-- A scan depends on the test at its candidates alone. -/
theorem greedyAt_congr {t1 t2 : Nat → Bool} {stop q : Nat} (h : ∀ x, q ≤ x → x + frameSize ≤ stop → t1 x = t2 x) :
    greedyAt t1 stop q = greedyAt t2 stop q := by
  induction q using scan_induction stop with
  | done q hd => rw [greedyAt_done hd, greedyAt_done hd]
  | next q hq ih1 ih25 =>
    have e := h q (Nat.le_refl _) hq
    have i1 := ih1 fun x h1 h2 => h x (by omega) h2
    have i25 := ih25 fun x h1 h2 => h x (by omega) h2
    cases ht : t1 q with
    | false => rw [greedyAt_mismatch hq ht, greedyAt_mismatch hq (by rw [← e, ht]), i1]
    | true => rw [greedyAt_match hq ht, greedyAt_match hq (by rw [← e, ht]), i25]

/-- The same bytes `a` offsets further on match `a` positions further on. -/
theorem greedyAt_shift (test : Nat → Bool) (a n q : Nat) :
    greedyAt test (a + n) (a + q) = (greedyAt (fun j => test (a + j)) n q).map (a + ·) := by
  induction q using scan_induction n with
  | done q h =>
    rw [greedyAt_done h, greedyAt_done (by omega)]
    rfl
  | next q hq ih1 ih25 =>
    cases ht : test (a + q) with
    | false =>
      rw [greedyAt_mismatch (by omega) ht, greedyAt_mismatch (test := fun j => test (a + j)) hq ht, ← ih1]
      rfl
    | true =>
      rw [greedyAt_match (by omega) ht, greedyAt_match (test := fun j => test (a + j)) hq ht, List.map_cons, ← ih25]
      rfl

/-- Positions where nothing matches are passed over. -/
theorem greedyAt_skip {test : Nat → Bool} {stop q n : Nat} (h : q ≤ n) (hn : n + frameSize ≤ stop)
    (hg : ∀ x, q ≤ x → x < n → test x = false) : greedyAt test stop q = greedyAt test stop n := by
  induction h using Nat.decreasingInduction with
  | self => rfl
  | of_succ k hk ih =>
    rw [greedyAt_mismatch (by omega) (hg k (Nat.le_refl _) hk)]
    exact ih fun x h1 h2 => hg x (by omega) h2

/-- The end of the last frame at the positions `G`, and `q` where there is none. -/
def endAt (G : List Nat) (q : Nat) : Nat := (G.getLast?.map fun x => x + frameSize).getD q

@[simp] theorem endAt_nil (q : Nat) : endAt [] q = q := rfl

theorem endAt_cons (x : Nat) (G : List Nat) (q : Nat) : endAt (x :: G) q = endAt G (x + frameSize) := by
  cases G with
  | nil => rfl
  | cons y G =>
    unfold endAt
    rw [List.getLast?_cons_cons]
    cases h : (y :: G).getLast? with
    | none => simp at h
    | some z => rfl

theorem endAt_append (A B : List Nat) (q : Nat) : endAt (A ++ B) q = endAt B (endAt A q) := by
  induction A generalizing q with
  | nil => rfl
  | cons x A ih => rw [List.cons_append, endAt_cons, endAt_cons, ih]

theorem endAt_map_add (G : List Nat) (a q : Nat) : endAt (G.map (a + ·)) (a + q) = a + endAt G q := by
  induction G generalizing q with
  | nil => rfl
  | cons x G ih => rw [List.map_cons, endAt_cons, endAt_cons, Nat.add_assoc, ih]

/-- A scan's last frame ends before the scan does. -/
theorem endAt_le {test : Nat → Bool} {stop q : Nat} (h : q ≤ stop) : endAt (greedyAt test stop q) q ≤ stop := by
  unfold endAt
  cases hl : (greedyAt test stop q).getLast? with
  | none => simpa using h
  | some z => simpa using (greedyAt_bound (List.mem_of_getLast? hl)).2.1

/-- A scan to a later end is the scan to an earlier end, gone on with from the end of that one's last frame. -/
theorem greedyAt_resume (test : Nat → Bool) {stop stop' : Nat} (hs : stop ≤ stop') (q : Nat) :
    greedyAt test stop' q =
      greedyAt test stop q ++ greedyAt test stop' (endAt (greedyAt test stop q) q) := by
  induction q using scan_induction stop with
  | done q h =>
    rw [greedyAt_done h]
    rfl
  | next q hq ih1 ih25 =>
    cases ht : test q with
    | true => rw [greedyAt_match hq ht, endAt_cons, List.cons_append, ← ih25, greedyAt_match (by omega) ht]
    | false =>
      rw [greedyAt_mismatch hq ht]
      by_cases hG : greedyAt test stop (q + 1) = []
      · rw [hG]
        rfl
      · have he : endAt (greedyAt test stop (q + 1)) q = endAt (greedyAt test stop (q + 1)) (q + 1) := by
          unfold endAt
          rw [List.getLast?_eq_some_getLast hG]
          rfl
        rw [he, ← ih1, greedyAt_mismatch (by omega) ht]

/-- Compaction and the full-consumption reset keep the unconsumed bytes, in order and in number (R101, R102). -/
theorem compact_reset_keeps_bytes {u : State} (hw : u.buf.wf = true) (h : u.cons ≤ u.app) :
    u.compact.resetIfConsumed.app - u.compact.resetIfConsumed.cons = u.app - u.cons ∧
      u.compact.resetIfConsumed.cons ≤ u.compact.resetIfConsumed.app ∧
      ∀ j, j < u.app - u.cons →
        u.compact.resetIfConsumed.buf.read (u.compact.resetIfConsumed.cons + j) = u.buf.read (u.cons + j) := by
  have hc : u.compact.app - u.compact.cons = u.app - u.cons ∧ u.compact.cons ≤ u.compact.app ∧
      ∀ j, j < u.app - u.cons → u.compact.buf.read (u.compact.cons + j) = u.buf.read (u.cons + j) := by
    unfold State.compact
    split
    · refine ⟨by simp, by simp, fun j hj => ?_⟩
      simp only [Memory.read_moveDown hw]
      rw [if_pos (by omega)]
      congr 1
      omega
    · exact ⟨rfl, h, fun j hj => rfl⟩
  obtain ⟨a, b, d⟩ := hc
  generalize u.compact = w at *
  unfold State.resetIfConsumed
  split
  · exact ⟨by simp; omega, by simp, fun j hj => by omega⟩
  · exact ⟨a, b, d⟩

end Sys2Proof.Machine
end

