-- ==== Sys2Proof/Laws/PerInstr.lean ====
section
/-! SUPPORT. Statements made per operation: `SpellingLength`, every spelling has the length its format gives (R63). -/

namespace Sys2Proof.Laws.SpellingLength

/-- The spelling of an operation is as long as its format says: 34, `3 + n`, 1 or 1 bytes (30_encoding.md R63). -/
def Statement (i : Instr) : Prop := (encode i).length = opLength i

theorem enc (r : EncRecord) : Statement (.enc r) := by
  simp [Statement, encode_enc, opLength]

theorem push (b : List Byte) : Statement (.push b) := by
  simp [Statement, encode, opLength]
  omega

theorem rdcnt : Statement .rdcnt := rfl

theorem rst : Statement .rst := rfl

/-- Every operation's spelling has its format's length. -/
theorem all (i : Instr) : Statement i := by
  cases i with
  | enc r => exact enc r
  | push b => exact push b
  | rdcnt => exact rdcnt
  | rst => exact rst

end Sys2Proof.Laws.SpellingLength
end

