-- ==== Sys2Proof/Machine/Pseudo.lean ====
section
/-! DEFINITION. The pseudo-operations (30_encoding.md R69): each expands to operations and has no meaning of its own. -/

namespace Sys2Proof.Machine

/-- `PUSHZ k`: a PUSH of `k` bytes 0x00. -/
def pushZ (k : Nat) : List Instr := [.push (List.replicate k 0x00#8)]

/-- `PUSHB k v`: a PUSH of `k` bytes `v`. -/
def pushB (k : Nat) (v : Byte) : List Instr := [.push (List.replicate k v)]

/-- `PUSHF <frame>`: a PUSH of a frame's 25 bytes. -/
def pushF (F : Frame) : List Instr := [.push F.toList]

/-- `LOOP ch=[..] ...`: ENC of the record, then PUSH of the 25 bytes ENC put on `enc_out`. -/
def loopBack (r : EncRecord) : List Instr := [.enc r, .push (encodeFrame r).toList]

end Sys2Proof.Machine
end

