-- ==== Sys2Proof/Machine/Text.lean ====
section
/-! DEFINITION. The text form of the operations (30_encoding.md R68, R69): one line to the operations it stands for.
A word is a list of characters; `named` gives the bytes of the named frames a line may use (R69). Where a word is both
a hexadecimal pair and a named frame (`A2`), it is the frame (notes/assumptions/15.md). -/

namespace Sys2Proof.Machine

/-- The value of a decimal digit. -/
def decDigit (c : Char) : Option Nat :=
  if 48 ≤ c.toNat ∧ c.toNat ≤ 57 then some (c.toNat - 48) else none

/-- The value of a hexadecimal digit. -/
def hexDigit (c : Char) : Option Nat :=
  if 65 ≤ c.toNat ∧ c.toNat ≤ 70 then some (c.toNat - 55)
  else if 97 ≤ c.toNat ∧ c.toNat ≤ 102 then some (c.toNat - 87)
  else decDigit c

/-- The digits of a numeral in a base, most significant first, after the value `acc` read so far. -/
def readDigits (base : Nat) (digit : Char → Option Nat) : (acc : Nat) → List Char → Option Nat
  | acc, [] => some acc
  | acc, c :: cs =>
    match digit c with
    | some d => readDigits base digit (acc * base + d) cs
    | none => none

/-- A number, decimal unless written `0x..` (R68). -/
def readNumber : List Char → Option Nat
  | [] => none
  | '0' :: 'x' :: d :: ds => readDigits 16 hexDigit 0 (d :: ds)
  | c :: cs => readDigits 10 decDigit 0 (c :: cs)

/-- A number below `bound`. -/
def readBelow (bound : Nat) (w : List Char) : Option Nat :=
  match readNumber w with
  | some n => if n < bound then some n else none
  | none => none

/-- A byte of a byte list: a hexadecimal pair (R68). -/
def readHexPair : List Char → Option Byte
  | [a, b] =>
    match hexDigit a, hexDigit b with
    | some x, some y => some (BitVec.ofNat 8 (16 * x + y))
    | _, _ => none
  | _ => none

/-- Cuts at every occurrence of a separator. -/
def splitAtChar (sep : Char) : List Char → List (List Char)
  | [] => [[]]
  | c :: cs =>
    if c = sep then [] :: splitAtChar sep cs
    else
      match splitAtChar sep cs with
      | w :: ws => (c :: w) :: ws
      | [] => [[c]]

/-- The words of a line: a comment starts at `;`, words stand between spaces (R68). -/
def lineWords (line : List Char) : List (List Char) :=
  (splitAtChar ' ' (line.takeWhile fun c => c != ';')).filter fun w => !w.isEmpty

/-- Every element read, or nothing. -/
def readAll {α : Type} (f : List Char → Option α) : List (List Char) → Option (List α)
  | [] => some []
  | w :: ws =>
    match f w, readAll f ws with
    | some a, some l => some (a :: l)
    | _, _ => none

/-- What follows a fixed beginning of a word. -/
def afterStart : (start : List Char) → List Char → Option (List Char)
  | [], w => some w
  | _ :: _, [] => none
  | c :: cs, d :: ds => if c = d then afterStart cs ds else none

/-- A word without its last character, which must be `c`. -/
def beforeEnd (c : Char) (w : List Char) : Option (List Char) :=
  if w.getLast? = some c then some w.dropLast else none

/-- A record with the given leading channels; an omitted tail is zeros (R68). -/
def recordOfChannels (cs : List Nat) : EncRecord where
  ch := Vector.ofFn fun i : Fin 16 => BitVec.ofNat 16 (cs.getD i.val 0)
  digital1 := false
  digital2 := false
  frameLost := false
  failSafe := false

/-- A flag's value, 0 or 1. -/
def readFlag (w : List Char) : Option Bool :=
  match w with
  | ['0'] => some false
  | ['1'] => some true
  | _ => none

/-- The words after `ENC`: `ch=[...]`, then any of `d1=`, `d2=`, `fl=`, `fs=`; an omitted one is 0 (R68). That they may
come in any order, and that of a flag written more than once the last one counts, is the model's choice (DESIGN CHOICE,
notes/assumptions/15.md). -/
def readRecordFrom : EncRecord → List (List Char) → Option EncRecord
  | r, [] => some r
  | r, w :: ws =>
    match w with
    | 'd' :: '1' :: '=' :: v =>
      match readFlag v with
      | some b => readRecordFrom { r with digital1 := b } ws
      | none => none
    | 'd' :: '2' :: '=' :: v =>
      match readFlag v with
      | some b => readRecordFrom { r with digital2 := b } ws
      | none => none
    | 'f' :: 'l' :: '=' :: v =>
      match readFlag v with
      | some b => readRecordFrom { r with frameLost := b } ws
      | none => none
    | 'f' :: 's' :: '=' :: v =>
      match readFlag v with
      | some b => readRecordFrom { r with failSafe := b } ws
      | none => none
    | _ => none

/-- The channel list `ch=[c0,c1,...]`, 1 to 16 numbers of 16 bits. R68 says only that an omitted tail is zeros; that at
least one channel is written, so that `ch=[]` is no channel list, is the model's choice (DESIGN CHOICE,
notes/assumptions/15.md). -/
def readChannels (w : List Char) : Option (List Nat) :=
  match afterStart "ch=[".toList w with
  | none => none
  | some rest =>
    match beforeEnd ']' rest with
    | none => none
    | some inside =>
      match readAll (readBelow 65536) (splitAtChar ',' inside) with
      | none => none
      | some cs => if cs.length ≤ 16 then some cs else none

/-- The record of an ENC line. That its first word must be a channel list, so that no line leaves `ch=` out, is the
model's choice (DESIGN CHOICE, notes/assumptions/15.md). -/
def readRecord : List (List Char) → Option EncRecord
  | [] => none
  | w :: ws =>
    match readChannels w with
    | some cs => readRecordFrom (recordOfChannels cs) ws
    | none => none

/-- The bytes of a named frame; of two frames with one name, the first (DESIGN CHOICE, notes/assumptions/15.md). -/
def namedBytes : List (List Char × List Byte) → List Char → Option (List Byte)
  | [], _ => none
  | (n, b) :: rest, w => if w = n then some b else namedBytes rest w

/-- A slice `X[a..b]` of a named frame: its bytes `a` to `b`, both inclusive (R69). That a reversed slice, `a > b`, and
one that does not lie inside its frame are rejected is the model's choice (DESIGN CHOICE, notes/assumptions/15.md). -/
def readSlice (named : List (List Char × List Byte)) (w : List Char) : Option (List Byte) :=
  match splitAtChar '[' w with
  | [n, rest] =>
    match namedBytes named n, beforeEnd ']' rest with
    | some bytes, some range =>
      match splitAtChar '.' range with
      | [a, [], b] =>
        match readNumber a, readNumber b with
        | some x, some y => if x ≤ y ∧ y < bytes.length then some ((bytes.drop x).take (y + 1 - x)) else none
        | _, _ => none
      | _ => none
    | _, _ => none
  | _ => none

/-- One part of a byte list: a named frame, a slice of one, or a hexadecimal pair (R69). -/
def readPart (named : List (List Char × List Byte)) (w : List Char) : Option (List Byte) :=
  match namedBytes named w with
  | some bytes => some bytes
  | none =>
    match readSlice named w with
    | some bytes => some bytes
    | none =>
      match readHexPair w with
      | some v => some [v]
      | none => none

/-- The byte list of a PUSH: parts in the order written, `‖` between them, `(v × k)` for `k` copies of `v` (R69). Every
`‖` is passed over, so that a leading, trailing or doubled one, and parts side by side without one, are accepted: the
model's choice (DESIGN CHOICE, notes/assumptions/15.md). -/
def readBytes (named : List (List Char × List Byte)) : List (List Char) → Option (List Byte)
  | [] => some []
  | ('(' :: v) :: ['×'] :: k :: ws =>
    match readHexPair v, beforeEnd ')' k with
    | some b, some n =>
      match readNumber n, readBytes named ws with
      | some n, some bytes => some (List.replicate n b ++ bytes)
      | _, _ => none
    | _, _ => none
  | ['‖'] :: ws => readBytes named ws
  | w :: ws =>
    match readPart named w, readBytes named ws with
    | some part, some bytes => some (part ++ bytes)
    | _, _ => none

/-- The operations of one line, its mnemonic first; an empty or comment line stands for none (R68, R69;
DESIGN CHOICE, notes/assumptions/15.md). -/
def readLine (named : List (List Char × List Byte)) (line : List Char) : Option (List Instr) :=
  match lineWords line with
  | [] => some []
  | op :: ws =>
    if op = "ENC".toList then (readRecord ws).map fun r => [.enc r]
    else if op = "PUSH".toList then (readBytes named ws).map fun b => [.push b]
    else if op = "RDCNT".toList then (if ws.isEmpty then some [.rdcnt] else none)
    else if op = "RST".toList then (if ws.isEmpty then some [.rst] else none)
    else if op = "LOOP".toList then (readRecord ws).map loopBack
    else if op = "PUSHZ".toList then
      match ws with
      | [k] => (readNumber k).map pushZ
      | _ => none
    else if op = "PUSHB".toList then
      match ws with
      | [k, v] =>
        match readNumber k, readBelow 256 v with
        | some n, some b => some (pushB n (BitVec.ofNat 8 b))
        | _, _ => none
      | _ => none
    else if op = "PUSHF".toList then
      match ws with
      | [n] => (namedBytes named n).map fun b => [.push b]
      | _ => none
    else none

end Sys2Proof.Machine
end

