-- ==== Sys2Proof/Tests/Slice0.lean ====
section
/-! SUPPORT. Tests of the model. Expected values stand in 95_test_vectors.md or are worked out by hand from the rule
named; and for every statement with hypotheses a witness of them. -/

namespace Sys2Proof.Tests

open Sys2Proof Sys2Proof.Machine

/-! ### Small states and frames -/

/-- The reset state in the vectors' configuration `CAP = 100` (95_test_vectors.md, D14). -/
def blank : State := { State.reset with cap := 100 }

/-- V1: `ch=[1]`. -/
def v1 : List Byte := [0x0F, 0x01] ++ List.replicate 23 0x00#8

/-- V1 with `F23 = 0x04`. -/
def v1Lost : List Byte := [0x0F, 0x01] ++ List.replicate 21 0x00#8 ++ [0x04, 0x00]

/-- A record with the given leading channels and flags. -/
def encRecord (cs : List Nat) (b : Bool) : EncRecord :=
  { ch := Vector.ofFn fun i : Fin 16 => BitVec.ofNat 16 (cs.getD i.val 0), digital1 := b, digital2 := b, frameLost := b,
    failSafe := b }

/-- The decoded record with the given leading channels, `frameLost` as given, and no other flag. -/
def decRecord (cs : List Nat) (lost : Bool) : DecRecord :=
  { ch := Vector.ofFn fun i : Fin 16 => BitVec.ofNat 11 (cs.getD i.val 0), digital1 := false, digital2 := false,
    frameLost := lost, failSafe := false }

/-- The next state, where there is one. -/
def nextOf (o : Host.Outcome State Fault Refusal) : Option State :=
  match o with
  | .next t => some t
  | .fault _ => none
  | .refused _ => none

/-- The refusal, where there is one. -/
def refusalOf (o : Host.Outcome State Fault Refusal) : Option Refusal :=
  match o with
  | .next _ => none
  | .fault _ => none
  | .refused r => some r

/-- Records, CONS, APP and FLC after an outcome. -/
def look (o : Host.Outcome State Fault Refusal) : Option (List DecRecord × Nat × Nat × Count) :=
  (nextOf o).map fun t => (t.recOut, t.cons, t.app, t.flc)

/-- A PUSH of V1 with `frameLost`, standing at its first candidate. -/
def scanning : State := blank.admitBatch v1Lost

/-- The same PUSH at M-emit. -/
def emitting : State := scanning.countAt 0 none

/-- The same, with a consumer that is not ready. -/
def held : State := { emitting with ready := false }

/-- Eighty retained bytes 0x55, as S4 leaves them. -/
def eighty : State := { blank with buf := Memory.writeList [] 0 (List.replicate 80 0x55#8), app := 80 }

/-! ### WellFormed: an ill-formed operation is refused -/

theorem push_wf_of_length {b : List Byte} {n : Nat} (h : b.length = n) :
    Instr.wf (.push b) = decide (n < 65536) := by
  simp only [Instr.wf, h]

theorem test_wf_refuses_long_batch : Instr.wf (.push (List.replicate 65536 0x00#8)) = false :=
  (push_wf_of_length List.length_replicate).trans (by decide)

theorem test_wf_accepts_longest_batch : Instr.wf (.push (List.replicate 65535 0x00#8)) = true :=
  (push_wf_of_length List.length_replicate).trans (by decide)

/-! ### Decode: words written bit by bit from 30_encoding.md R63 to R66 -/

/-- ENC: opcode 00000001; channel 0 = 0x0405 low byte first; channel 15 = 0x8001; flags byte 0000 failSafe=1
frameLost=0 digital2=1 digital1=0. -/
theorem test_decode_enc :
    (decode ([0b00000001#8, 0b00000101#8, 0b00000100#8] ++ List.replicate 28 0b00000000#8 ++
        [0b00000001#8, 0b10000000#8, 0b00001010#8])).toOption.map (fun x => (x.1, x.2)) =
      some (.enc { ch := Vector.ofFn fun i : Fin 16 => if i.val = 0 then 0x0405#16 else if i.val = 15 then 0x8001#16
          else 0x0000#16, digital1 := false, digital2 := true, frameLost := false, failSafe := true }, []) := by
  decide

/-- PUSH: opcode 00000010; n = 2 low byte first; two bytes; the byte behind them is the rest. -/
theorem test_decode_push :
    (decode [0b00000010#8, 0b00000010#8, 0b00000000#8, 0b10100101#8, 0b00001111#8, 0b00000100#8]).toOption =
      some (.push [0xA5#8, 0x0F#8], [0x04#8]) := by
  decide

theorem test_decode_push_length_is_little_endian : (decode [0x02#8, 0x00#8, 0x01#8]).toOption = none := by decide

theorem test_decode_rdcnt : (decode [0b00000011#8]).toOption = some (.rdcnt, []) := by decide

theorem test_decode_rst : (decode [0b00000100#8, 0b00000011#8]).toOption = some (.rst, [0x03#8]) := by decide

/-- R65: 0x00 and 0x05 spell no operation. -/
theorem test_decode_reserved : (decode [0b00000000#8]).toOption = none ∧ (decode [0b00000101#8]).toOption = none := by
  decide

/-- An ENC whose bits 7..4 of the flags byte are set is the same ENC (R65). -/
theorem test_decode_enc_ignores_high_flag_bits :
    (decodeTableWord 272 (0x01 + 0xF3 * 2 ^ 132 * 2 ^ 132)) = (decodeTableWord 272 (0x01 + 0x03 * 2 ^ 132 * 2 ^ 132)) ∧
      (decodeTableWord 272 (0x01 + 0xF3 * 2 ^ 132 * 2 ^ 132)).isSome = true := by
  decide

theorem test_encode_push : encode (.push [0xA5#8, 0x0F#8]) = [0x02#8, 0x02#8, 0x00#8, 0xA5#8, 0x0F#8] := by decide

/-! ### ENC -/

/-- 95_test_vectors.md V18: flags are ignored, and the frame is V1. -/
theorem test_enc_v18 : (nextOf (exec (.enc (encRecord [1] true)) blank)).map (fun t => t.encOut.map Vector.toList) =
    some [v1] := by
  decide

/-- 95_test_vectors.md V5: `ch[i] = i`. -/
theorem test_enc_v5 :
    (encodeFrame (encRecord [0, 1, 2, 3, 4, 5, 6, 7, 8, 9, 10, 11, 12, 13, 14, 15] false)).toList =
      [0x0F, 0x00, 0x08, 0x80, 0x00, 0x06, 0x40, 0x80, 0x02, 0x18, 0xE0, 0x00, 0x08, 0x48, 0x80, 0x02, 0x16, 0xC0, 0x80,
        0x06, 0x38, 0xE0, 0x01, 0x00, 0x00] := by
  decide

/-! ### PUSH -/

/-- 95_test_vectors.md S1: five bytes 0x00, then V1. -/
theorem test_push_s1 : look (exec (.push (List.replicate 5 0x00#8 ++ v1)) blank) =
    some ([decRecord [1] false], 0, 0, 0#32) := by
  decide

/-- 95_test_vectors.md S4: the batch that fires the guard is kept, and its frame `X` emitted. -/
theorem test_push_s4 : look (exec (.push ([0x0F, 0xFF, 0x2F] ++ List.replicate 22 0x00#8)) eighty) =
    some ([decRecord [2047, 5] false], 0, 0, 0#32) := by
  decide

/-- 95_test_vectors.md S7: FLC wraps from 0xFFFFFFFF to 0. -/
theorem test_push_s7 : look (exec (.push v1Lost) { blank with flc := 0xFFFFFFFF#32 }) =
    some ([decRecord [1] true], 0, 0, 0#32) := by
  decide

/-- 95_test_vectors.md S9: n = 0 changes nothing, and n = 101 is refused. -/
theorem test_push_s9 : nextOf (exec (.push []) blank) = some blank ∧
    refusalOf (exec (.push (List.replicate 101 0x00#8)) blank) = some .batchTooLong := by
  decide

/-- 60_exceptions.md R120: where both apply, the overlap is reported and not the length. -/
theorem test_push_refusal_order :
    refusalOf (exec (.push (List.replicate 101 0x00#8)) scanning) = some .overlappingPush := by
  decide

/-! ### RDCNT and RST -/

/-- R86, R98: at M-emit of a frame-lost record, RDCNT already returns its count. -/
theorem test_rdcnt_during_push : (nextOf (exec .rdcnt emitting)).map (fun t => t.flCount) = some [1#32] := by decide

/-- 70_reset_and_hazards.md R127's example: retained bytes and `FLC = 3`, then RST. -/
theorem test_rst_example : look (exec .rst { eighty with flc := 3#32 }) = some ([], 0, 0, 0#32) := by decide

theorem test_rst_refused_during_push : refusalOf (exec .rst scanning) = some .resetDuringPush := by decide

/-! ### Text form (30_encoding.md R68, R69) -/

theorem test_text_enc : readLine [] "ENC ch=[1,0x10] fl=1 ; a comment".toList =
    some [.enc { encRecord [1, 16] false with frameLost := true }] := by
  decide

theorem test_text_push_parts : readLine [("V1".toList, v1)] "PUSH 55 ‖ (A0 × 2) ‖ V1[0..1]".toList =
    some [.push [0x55#8, 0xA0#8, 0xA0#8, 0x0F#8, 0x01#8]] := by
  decide

theorem test_pseudo_loop : loopBack (encRecord [1] false) = [.enc (encRecord [1] false), .push v1] := by decide

/-! ### Witnesses: a state and operands that meet each statement's hypotheses -/

/-- Ten retained bytes, the beginning of V1, as S3 leaves them. -/
def ten : State := { blank with buf := Memory.writeList [] 0 (v1.take 10), app := 10 }

/-- The reset block holds its invariant in the configuration of the vectors. -/
theorem blank_inv : BlockInv blank where
  bufWf := rfl
  bufInside := by decide
  capHoldsFrame := by decide
  consLeApp := by decide
  appLeCap := by decide
  phaseInv := ⟨fun q _ h => absurd h (Nat.not_lt_zero q), by decide, by decide⟩

theorem ten_inv : BlockInv ten where
  bufWf := by decide
  bufInside := by decide
  capHoldsFrame := by decide
  consLeApp := by decide
  appLeCap := by decide
  phaseInv := ⟨fun q _ h => absurd h (Nat.not_lt_zero q), by decide, by decide⟩

theorem blank_quiet : blank.Quiet := ⟨rfl, rfl, rfl⟩

theorem blank_empty : blank.Empty := ⟨rfl, rfl⟩

/-- V1 as a frame. -/
def v1Frame : Frame := encodeFrame (encRecord [1] false)

/-- A state in which the next operation has its turn, while a PUSH holds. -/
def heldWithRequest (op : Byte) : State := { held with requests := [op], turns := [.request] }

theorem test_witness_DecodeOfEncode : Instr.wf (.enc (encRecord [4095] true)) = true ∧
    Instr.wf (.push [0x0F#8]) = true := by
  decide

theorem test_witness_DecodedBytesAreTheSpelling :
    decode [0x02#8, 0x01#8, 0x00#8, 0x0F#8, 0x04#8] = .ok (.push [0x0F#8], [0x04#8]) ∧
      decode [0x03#8] = .ok (.rdcnt, []) ∧ decode [0x04#8] = .ok (.rst, []) := ⟨rfl, rfl, rfl⟩

theorem test_witness_DecodedBytesAreTheSpelling_enc :
    ∃ i, decode (0x01#8 :: List.replicate 32 0x00#8 ++ [0xF3#8]) = .ok (i, []) := ⟨_, rfl⟩

theorem test_witness_ReservedOpcodeIsRefused :
    (0x05#8 ≤ (0x05#8 : Byte)) ∧ (0x05#8 ≤ (0xFF#8 : Byte)) ∧
    ({ blank with requests := [0x00#8] } : State).requests = 0x00#8 :: [] ∧
    ({ blank with requests := [0x00#8] } : State).turns = [] ∧
      ({ blank with requests := [0x00#8] } : State).phase = .idle ∧
    (heldWithRequest 0x05).turns.head? = some .request := by
  decide

theorem test_witness_TableWordRunsNext :
    decodeTableWord 8 0x03 = some .rdcnt ∧ decodeTableWord 8 0x04 = some .rst ∧
      decodeTableWord 24 0x02 = some (.push []) ∧
      decodeTableWord 272 0x01 = some (.enc (encRecord [] false)) := by
  decide

theorem test_witness_DecodedFlagsAndIgnoredBits :
    (∀ k : Fin 25, 1 ≤ k.val → k.val ≤ 22 →
      (Vector.ofFn fun k : Fin 25 => if k.val = 23 then 0xF0#8 else 0x00#8 : Frame).get k =
        (Vector.ofFn fun k : Fin 25 => if k.val = 0 then 0x0F#8 else 0x00#8 : Frame).get k) ∧
    ((Vector.ofFn fun k : Fin 25 => if k.val = 23 then 0xF0#8 else 0x00#8 : Frame).get 23).setWidth 4 =
      ((Vector.ofFn fun k : Fin 25 => if k.val = 0 then 0x0F#8 else 0x00#8 : Frame).get 23).setWidth 4 := by
  decide

theorem test_witness_RstCompletes : eighty.phase = .idle := by decide

theorem test_witness_RstRefusedDuringPush : scanning.phase ≠ .idle ∧ held.phase ≠ .idle := by decide

theorem test_witness_EncCommutes : (∀ r, Instr.push v1 ≠ .enc r) ∧ (∀ r, Instr.rdcnt ≠ .enc r) ∧
    (∀ r, Instr.rst ≠ .enc r) ∧ Instr.push v1 ≠ .rdcnt ∧ Instr.rst ≠ .rdcnt ∧ Turn.sync ≠ .request ∧
    Turn.take ≠ .request ∧ Turn.ready false ≠ .request := by
  refine ⟨?_, ?_, ?_, ?_, ?_, by decide, by decide, by decide⟩ <;> intros <;> intro h <;> cases h

theorem test_witness_PushRefusedDuringPush : emitting.phase ≠ .idle := by decide

/-- Lengths 0, 1, CAP and CAP + 1. -/
theorem test_witness_PushAdmissionByLength :
    blank.phase = .idle ∧ (List.replicate 101 0x00#8).length > blank.cap ∧ ([] : List Byte).length = 0 ∧
      1 ≤ ([0x0F#8] : List Byte).length ∧ (List.replicate 100 0x00#8).length ≤ blank.cap := by
  decide

/-- `APP + n = CAP + 1` and `APP + n = CAP`. -/
theorem test_witness_OverflowGuard : eighty.app + 21 > eighty.cap ∧ eighty.app + 20 ≤ eighty.cap := by decide

theorem test_witness_OverflowRestartsTheStream :
    eighty.phase = .idle ∧ 1 ≤ v1.length ∧ v1.length ≤ eighty.cap ∧ eighty.app + v1.length > eighty.cap := by
  decide

theorem test_witness_AppendPlacesTheBatch :
    eighty.buf.wf = true ∧ v1.length ≤ eighty.cap ∧ eighty.app + v1.length > eighty.cap := by
  decide

theorem test_witness_PushStartsUnderListedTurns :
    ({ blank with turns := [.sync] } : State).phase = .idle ∧ ({ blank with turns := [.sync] } : State).turns ≠ [] ∧
      1 ≤ v1.length ∧ v1.length ≤ ({ blank with turns := [.sync] } : State).cap := by
  decide

/-- At the last candidate position, `p + 25 = APP`. -/
theorem test_witness_MismatchMovesOneByte :
    (blank.admitBatch (List.replicate 25 0x55#8)).phase = .scan 0 none ∧
      (blank.admitBatch (List.replicate 25 0x55#8)).app ≤ (blank.admitBatch (List.replicate 25 0x55#8)).cap ∧
      0 + 25 ≤ (blank.admitBatch (List.replicate 25 0x55#8)).app ∧
      isFrameAt (blank.admitBatch (List.replicate 25 0x55#8)).buf 0 = false := by
  decide

theorem test_witness_MatchCountsBeforeEmission :
    scanning.phase = .scan 0 none ∧ scanning.app ≤ scanning.cap ∧ 0 + 25 ≤ scanning.app ∧
      isFrameAt scanning.buf 0 = true := by
  decide

theorem test_witness_ReadyConsumerGetsTheRecord :
    emitting.phase = .emit 0 none (decRecord [1] true) ∧ emitting.ready = true := by
  decide

theorem test_witness_HoldAtEmission : held.phase = .emit 0 none (decRecord [1] true) ∧ held.ready = false := by decide

/-- An RDCNT has its turn while the PUSH holds. -/
theorem test_witness_OnlyTheConsumerLiftsTheHold :
    (heldWithRequest 0x03).phase = .emit 0 none (decRecord [1] true) ∧ (heldWithRequest 0x03).ready = false ∧
      (heldWithRequest 0x03).turns.head? ≠ some .take ∧
      (nextOf (step (heldWithRequest 0x03))).map (fun t => t.flCount) = some [1#32] := by
  decide

theorem test_witness_CursorsAfterTheScan :
    ({ ten with cons := 10 } : State).cons = ({ ten with cons := 10 } : State).app ∧ ten.cons ≠ ten.app ∧
      25 ≤ ten.cap := by
  decide

/-- Free space of 25, of 24, and `CONS = 0`. -/
theorem test_witness_CompactionMovesTheTail :
    eighty.buf.wf = true ∧ 25 ≤ ({ eighty with app := 75 } : State).cap - ({ eighty with app := 75 } : State).app ∧
      ({ eighty with app := 76 } : State).cap - ({ eighty with app := 76 } : State).app < 25 ∧ eighty.cons = 0 := by
  decide

theorem test_witness_PushCompletes : blank.Quiet ∧ 1 ≤ v1.length ∧ (List.replicate 100 0x00#8).length ≤ blank.cap :=
  ⟨blank_quiet, by decide, by decide⟩

theorem test_witness_PushHoldsAtItsFirstMatch :
    ({ blank with ready := false } : State).phase = .idle ∧ ({ blank with ready := false } : State).ready = false ∧
      ({ blank with ready := false } : State).turns = [] ∧ 1 ≤ v1.length ∧
      v1.length ≤ ({ blank with ready := false } : State).cap := by
  decide

theorem test_witness_PushFrame : (nextOf (exec (.push v1) blank)).isSome = true := by decide

theorem test_witness_PushMemory :
    eighty.buf.wf = true ∧ eighty.Quiet ∧ 1 ≤ v1.length ∧ v1.length ≤ eighty.cap :=
  ⟨by decide, ⟨rfl, rfl, rfl⟩, by decide, by decide⟩

theorem test_witness_PushCountBounds : ten.Quiet ∧ 1 ≤ (v1.drop 10).length ∧ (v1.drop 10).length ≤ ten.cap :=
  ⟨⟨rfl, rfl, rfl⟩, by decide, by decide⟩

/-- V1 cut after its tenth byte. -/
theorem test_witness_BatchBoundariesDoNotMatter :
    BlockInv blank ∧ blank.Quiet ∧ blank.Empty ∧ (pushAllWithin [v1.take 10, v1.drop 10] blank).isSome = true :=
  ⟨blank_inv, blank_quiet, blank_empty, by decide⟩

/-- Fourteen retained bytes of a 25-byte buffer, and a batch of 25. -/
theorem test_witness_GuardFiresOnlyOnRetainedBytes :
    BlockInv { ten with cap := 25 } ∧ ({ ten with cap := 25 } : State).phase = .idle ∧
      ({ ten with cap := 25 } : State).app + 25 > ({ ten with cap := 25 } : State).cap :=
  ⟨{ bufWf := by decide
     bufInside := by decide
     capHoldsFrame := by decide
     consLeApp := by decide
     appLeCap := by decide
     phaseInv := ⟨fun q _ h => absurd h (Nat.not_lt_zero q), by decide, by decide⟩ }, rfl, by decide⟩

theorem v1_valid : ValidFrame v1Frame := by
  show isFrameEnds (v1Frame.get 0) (v1Frame.get 24) = true
  decide

theorem test_witness_CleanStreamNeverOverflows :
    BlockInv blank ∧ blank.Quiet ∧ blank.Empty ∧ 50 ≤ blank.cap ∧ (∀ F ∈ [v1Frame], ValidFrame F) ∧
      (∀ b ∈ [v1.take 10, v1.drop 10], b.length ≤ 25) ∧ [v1.take 10, v1.drop 10].flatten <+: streamOf [v1Frame] :=
  ⟨blank_inv, blank_quiet, blank_empty, by decide, List.forall_mem_singleton.2 v1_valid, by decide, ⟨[], by decide⟩⟩

theorem test_witness_FalseSynchronisation : BlockInv blank ∧ blank.Quiet ∧ blank.Empty ∧ 26 ≤ blank.cap :=
  ⟨blank_inv, blank_quiet, blank_empty, by decide⟩

theorem test_witness_CleanGarbageIsSkipped :
    BlockInv blank ∧ blank.Quiet ∧ blank.Empty ∧ ValidFrame v1Frame ∧ (0x0F#8 ∉ List.replicate 5 0x00#8) ∧
      (List.replicate 5 0x00#8).length + 25 ≤ blank.cap :=
  ⟨blank_inv, blank_quiet, blank_empty, v1_valid, by decide, by decide⟩

theorem test_witness_AlignedFramesAllDecoded :
    BlockInv blank ∧ blank.Quiet ∧ blank.Empty ∧ (∀ F ∈ [v1Frame, v1Frame], ValidFrame F) ∧ [v1Frame, v1Frame] ≠ [] ∧
      25 * [v1Frame, v1Frame].length ≤ blank.cap :=
  ⟨blank_inv, blank_quiet, blank_empty, List.forall_mem_cons.2 ⟨v1_valid, List.forall_mem_singleton.2 v1_valid⟩,
    List.cons_ne_nil _ _, by decide⟩

theorem test_witness_RoundTripThroughTheBlock : BlockInv blank ∧ blank.Quiet ∧ blank.Empty :=
  ⟨blank_inv, blank_quiet, blank_empty⟩

/-- `blank` with an RDCNT, an RDCNT and an ENC presented. -/
def reading : State := { blank with requests := [.rdcnt, .rdcnt, .enc (encRecord [1] false)].flatMap encode }

/-- RDCNT, M-count, RDCNT, ENC, the consumer's step: the first read returns 0, the second 1. -/
theorem test_witness_ConcurrentReadSeesAPrefix :
    reading.phase = .idle ∧ v1Lost.length ≤ reading.cap ∧
      (∀ i ∈ [Instr.rdcnt, .rdcnt, .enc (encRecord [1] false)], mayInterleave i = true) ∧
      reading.requests = [Instr.rdcnt, .rdcnt, .enc (encRecord [1] false)].flatMap encode ++ [] ∧
      [Turn.request, .sync, .request, .request, .take].count .request ≤
        [Instr.rdcnt, .rdcnt, .enc (encRecord [1] false)].length ∧
      (nextOf (takeTurns [.request, .sync, .request, .request, .take] (reading.admitBatch v1Lost))).map
        (fun t => (t.flCount, t.encOut.length, t.recOut)) = some ([0#32, 1#32], 1, [decRecord [1] true]) := by
  decide

/-- The same turns and M-final: the PUSH has ended, with its record emitted. -/
theorem test_witness_ConcurrentReadSeesAPrefix_ended :
    (nextOf (takeTurns [.request, .sync, .request, .request, .take, .sync] (reading.admitBatch v1Lost))).map
      (fun t => (t.phase, t.recOut, t.cons, t.app)) = some (.idle, [decRecord [1] true], 0, 0) := by
  decide

/-- The other side: a turn that waits for bytes behind an opcode. -/
theorem test_witness_ConcurrentReadSeesAPrefix_waiting : decode [0x02#8] = .error .incomplete := rfl

/-- The first position that is no candidate, `p + 25 = APP + 1`. -/
theorem test_witness_LastMicroStepFinalizes :
    ({ scanning with phase := .scan 1 none } : State).phase = .scan 1 none ∧
      ({ scanning with phase := .scan 1 none } : State).app ≤ ({ scanning with phase := .scan 1 none } : State).cap ∧
      ({ scanning with phase := .scan 1 none } : State).app < 1 + 25 := by
  decide

theorem test_witness_ScanEndsInBoundedMicroSteps :
    scanning.app ≤ scanning.cap ∧ scanning.ready = true ∧ scanning.phase = .scan 0 none := by
  decide

theorem test_witness_StepRunsTheDecodedOperation :
    decode ({ blank with requests := [0x03#8] } : State).requests = .ok (.rdcnt, []) ∧
      ({ blank with requests := [0x03#8] } : State).turns = [] ∧
        ({ blank with requests := [0x03#8] } : State).phase = .idle ∧
      (heldWithRequest 0x03).turns.head? = some .request :=
  ⟨rfl, rfl, rfl, rfl⟩

theorem test_witness_StepWithoutARequest :
    ({ blank with turns := [.take] } : State).turns = .take :: [] ∧ scanning.turns = [] ∧ scanning.phase ≠ .idle ∧
      blank.turns = [] ∧ blank.phase = .idle ∧ decode blank.requests = .error .incomplete :=
  ⟨rfl, rfl, by decide, rfl, rfl, rfl⟩

theorem test_witness_InvariantKeptByEveryStep :
    BlockInv (ten.withFetchWord 8 0x03) ∧ (nextOf (step (ten.withFetchWord 8 0x03))).isSome = true :=
  ⟨{ bufWf := ten_inv.bufWf
     bufInside := ten_inv.bufInside
     capHoldsFrame := ten_inv.capHoldsFrame
     consLeApp := ten_inv.consLeApp
     appLeCap := ten_inv.appLeCap
     phaseInv := ten_inv.phaseInv }, by decide⟩

theorem test_witness_OperationBoundaryInvariants :
    BlockInv ten ∧ ten.phase = .idle ∧
      (nextOf (exec (.push (v1.drop 10)) ten)).map (fun t => decide (t.phase = .idle)) = some true :=
  ⟨ten_inv, rfl, by decide⟩

theorem test_witness_NoStepFaults : BlockInv ten := ten_inv

theorem test_witness_CounterIsWrittenOnlyByPushAndRst :
    (nextOf (exec (.push v1Lost) blank)).map (fun t => decide (t.flc ≠ blank.flc)) = some true ∧
      (nextOf (exec .rst { blank with flc := 3#32 })).map (fun t => t.flc) = some 0#32 ∧
      (nextOf (microStep scanning)).map (fun t => decide (t.flc ≠ scanning.flc)) = some true := by
  decide

/-- The exception: an RST performed in its turn. -/
theorem test_witness_RecordStreamOnlyGrows_rst :
    (nextOf (step ({ blank with recOut := [decRecord [1] true] }.withFetchWord 8 0x04))).map (fun t => t.recOut) =
      some [] := by
  decide

theorem test_witness_RecordStreamOnlyGrows : (nextOf (step emitting)).map (fun t => t.recOut) =
    some [decRecord [1] true] := by
  decide

theorem test_witness_CapacityNeverChanges : (nextOf (step scanning)).map (fun t => t.cap) = some 100 := by decide

/-- The same ten bytes, with a stale byte at offset 50. -/
theorem test_witness_StaleBytesAreNotObservable :
    BlockInv ten ∧ ({ ten with buf := ten.buf.write 50 0x55#8 } : State).buf.wf = true ∧
      SameButStale ten { ten with buf := ten.buf.write 50 0x55#8 } :=
  ⟨ten_inv, by decide, rfl, fun o _ h => by
    have key : ∀ o, o < 10 → (ten.buf.write 50 0x55#8).read o = ten.buf.read o := by decide
    exact key o h⟩

end Sys2Proof.Tests
end

section
/-! PROOFS, family 10_state.md. What an operation and a step can do, said once: an operation's cases, the moves of the
engine, and every step as a run of those moves or as the RST that re-creates the engine. -/

namespace Sys2Proof.Machine

/-! ### The operations -/

@[simp] theorem exec_enc (r : EncRecord) (s : State) : exec (.enc r) s = .next (s.withEncOut (encodeFrame r)) := rfl

@[simp] theorem exec_push (b : List Byte) (s : State) : exec (.push b) s = execPush b s := rfl

@[simp] theorem exec_rdcnt (s : State) : exec .rdcnt s = .next (s.withFlCount s.flc) := rfl

@[simp] theorem exec_rst (s : State) : exec .rst s = execRst s := rfl

theorem execRst_idle {s : State} (h : s.phase = .idle) : execRst s = .next s.recreate := by simp [execRst, h]

theorem execRst_busy {s : State} (h : s.phase ≠ .idle) : execRst s = .refused .resetDuringPush := by simp [execRst, h]

/-- What an RST that answers a next state did. -/
theorem execRst_next {s t : State} (h : execRst s = .next t) : s.phase = .idle ∧ t = s.recreate := by
  by_cases hp : s.phase = .idle
  · rw [execRst_idle hp] at h
    cases h
    exact ⟨hp, rfl⟩
  · rw [execRst_busy hp] at h
    cases h

/-- What a PUSH that answers a next state did. -/
theorem execPush_next {b : List Byte} {s t : State} (h : execPush b s = .next t) :
    s.phase = .idle ∧ b.length ≤ s.cap ∧
      (t = s ∨ t = s.admitBatch b ∨ syncRun (s.admitBatch b) = .next t) := by
  rcases execPush_cases b s with ⟨_, e⟩ | ⟨_, _, e⟩ | ⟨hp, hb, e⟩ | ⟨hp, _, hl, _, e⟩ | ⟨hp, _, hl, _, e⟩ <;>
    rw [e] at h
  · cases h
  · cases h
  · cases h
    exact ⟨hp, by simp [hb], .inl rfl⟩
  · cases h
    exact ⟨hp, hl, .inr (.inl rfl)⟩
  · exact ⟨hp, hl, .inr (.inr h)⟩

/-! ### The moves of the engine -/

/-- The engine itself is the same: its capacity, buffer, cursors, counter, micro-step and record stream. The other two
ports, the requests, the turns and the consumer's readiness may differ. -/
structure SameEngine (s t : State) : Prop where
  cap : t.cap = s.cap
  buf : t.buf = s.buf
  cons : t.cons = s.cons
  app : t.app = s.app
  flc : t.flc = s.flc
  phase : t.phase = s.phase
  recOut : t.recOut = s.recOut

/-- What stands outside the engine is no part of it. -/
theorem SameEngine.of_outside (s : State) (encOut : List Frame) (flCount : List Count) (requests : List Byte)
    (turns : List Turn) (ready : Bool) :
    SameEngine s
      { s with encOut := encOut, flCount := flCount, requests := requests, turns := turns, ready := ready } :=
  ⟨rfl, rfl, rfl, rfl, rfl, rfl, rfl⟩

/-- One move of the engine, or of the agents around it: a batch's admission, a mismatch, M-count, M-emit with the record
taken, and M-final (41_synchronizer.md R86). -/
inductive EngineMove (s : State) : State → Prop where
  | outside {t : State} (h : SameEngine s t) : EngineMove s t
  | admission {b : List Byte} (hp : s.phase = .idle) (hb : b.length ≤ s.cap) : EngineMove s (s.admitBatch b)
  | mismatch {p : Nat} {last : Option Nat} (hp : s.phase = .scan p last) (hw : p + frameSize ≤ s.app)
      (hm : isFrameAt s.buf p = false) : EngineMove s { s with phase := .scan (p + 1) last }
  | count {p : Nat} {last : Option Nat} (hp : s.phase = .scan p last) (hw : p + frameSize ≤ s.app)
      (hm : isFrameAt s.buf p = true) : EngineMove s (s.countAt p last)
  | deliver {p : Nat} {last : Option Nat} {rec : DecRecord} (hp : s.phase = .emit p last rec) :
      EngineMove s (s.deliver p rec)
  | finalize {p : Nat} {last : Option Nat} (hp : s.phase = .scan p last) (hw : s.app < p + frameSize) :
      EngineMove s (s.finalize last)

/-- Moves one after the other. -/
abbrev EngineMoves : State → State → Prop := Relation.ReflTransGen EngineMove

/-- What every move keeps, a run of moves keeps. -/
theorem EngineMoves.keeps {P : State → Prop} (move : ∀ s t, P s → EngineMove s t → P t) {s t : State}
    (h : EngineMoves s t) (hs : P s) : P t := by
  induction h with
  | refl => exact hs
  | tail _ hm ih => exact move _ _ ih hm

theorem microStep_moves {s t : State} (h : microStep s = .next t) : EngineMoves s t := by
  rcases microStep_cases h with ⟨_, rfl⟩ | ⟨p, last, rec, hp, ⟨_, rfl⟩ | ⟨_, rfl⟩⟩ |
    ⟨p, last, hp, _, ⟨hw, hm, rfl⟩ | ⟨hw, hm, rfl⟩ | ⟨hw, rfl⟩⟩
  · exact .refl
  · exact .single (.deliver hp)
  · exact .refl
  · exact .single (.count hp hw hm)
  · exact .single (.mismatch hp hw hm)
  · exact .single (.finalize hp hw)

theorem syncRun_moves {s t : State} (h : syncRun s = .next t) : EngineMoves s t :=
  runSync_keeps (P := EngineMoves s) (fun _ _ hs hm => hs.trans (microStep_moves hm)) .refl h

theorem consumerTake_moves (s : State) : EngineMoves s s.consumerTake := by
  unfold State.consumerTake
  split
  · next hp => exact .single (.deliver hp)
  · exact .refl
  · exact .refl

/-- Every operation but RST is a run of moves. -/
theorem exec_moves {i : Instr} {s t : State} (hi : i ≠ .rst) (h : exec i s = .next t) : EngineMoves s t := by
  cases i with
  | enc r =>
    cases h
    exact .single (.outside (.of_outside ..))
  | push b =>
    obtain ⟨hp, hb, rfl | rfl | hrun⟩ := execPush_next h
    · exact .refl
    · exact .single (.admission hp hb)
    · exact .head (.admission hp hb) (syncRun_moves hrun)
  | rdcnt =>
    cases h
    exact .single (.outside (.of_outside ..))
  | rst => exact absurd rfl hi

/-! ### The step -/

theorem step_of_turns_nil {s : State} (h : s.turns = []) : step s = defaultMove s := by
  simp [step, h]

theorem step_of_turns_cons {s : State} {x : Turn} {ts : List Turn} (h : s.turns = x :: ts) :
    step s = takeTurn x { s with turns := ts } := by
  simp [step, h]

theorem serve_of_decode {s : State} {i : Instr} {rest : List Byte} (h : decode s.requests = .ok (i, rest)) :
    serve s = exec i { s with requests := rest } := by
  simp [serve, h]

/-- `s` performs the RST that is its next request, behind which it is `t`. -/
def PerformsRst (s t : State) : Prop :=
  s.phase = .idle ∧ (∃ rest, decode s.requests = .ok (.rst, rest)) ∧ ∃ u, SameEngine s u ∧ t = u.recreate

/-- What a request's turn that answers a next state did. -/
theorem serve_moves {s t : State} (h : serve s = .next t) : EngineMoves s t ∨ PerformsRst s t := by
  unfold serve at h
  split at h
  · next i rest hd =>
    have hs : SameEngine s { s with requests := rest } := .of_outside ..
    by_cases hi : i = .rst
    · subst hi
      obtain ⟨hp, rfl⟩ := execRst_next h
      exact .inr ⟨hp, ⟨rest, hd⟩, _, hs, rfl⟩
    · exact .inl (.head (.outside hs) (exec_moves hi h))
  · cases h
    exact .inl .refl
  · cases h

/-- What a step that answers a next state did: moves of the engine, or the RST whose turn it is. -/
theorem step_moves {s t : State} (h : step s = .next t) :
    EngineMoves s t ∨ ((s.turns = [] ∨ s.turns.head? = some .request) ∧ PerformsRst s t) := by
  cases ht : s.turns with
  | nil =>
    rw [step_of_turns_nil ht, defaultMove] at h
    split at h
    · exact (serve_moves h).imp_right fun hr => ⟨.inl rfl, hr⟩
    · exact .inl (syncRun_moves h)
  | cons x ts =>
    rw [step_of_turns_cons ht] at h
    have hs : EngineMove s { s with turns := ts } := .outside (.of_outside ..)
    cases x with
    | sync => exact .inl (.head hs (microStep_moves h))
    | take =>
      cases h
      exact .inl (.head hs (consumerTake_moves _))
    | ready b =>
      cases h
      exact .inl (.single (.outside (.of_outside ..)))
    | request =>
      rcases serve_moves h with hm | ⟨hp, hd, u, hu, rfl⟩
      · exact .inl (.head hs hm)
      · exact .inr ⟨.inr rfl, hp, hd, u, ⟨hu.cap, hu.buf, hu.cons, hu.app, hu.flc, hu.phase, hu.recOut⟩, rfl⟩

/-- What every move keeps, and RST at an operation boundary as well, every step keeps. -/
theorem step_keeps {P : State → Prop} (move : ∀ s t, P s → EngineMove s t → P t)
    (rst : ∀ s, P s → s.phase = .idle → P s.recreate) {s t : State} (hs : P s) (h : step s = .next t) : P t := by
  rcases step_moves h with hm | ⟨_, hp, _, u, hu, rfl⟩
  · exact hm.keeps move hs
  · exact rst u (move s u hs (.outside hu)) (hu.phase.trans hp)

/-! ### The statements that follow from those cases -/

/-- Settles O15: RDCNT appends FLC to `fl_count` and is complete (R105). -/
theorem rdcntCompletes : Obligations.RdcntCompletes := fun s => exec_rdcnt s

/-- Settles O16: at an operation boundary RST is `recreate`, which clears the buffer (R127). -/
theorem rstCompletes : Obligations.RstCompletes := fun s hp =>
  ⟨s.recreate, execRst_idle hp, Memory.read_cleared, rfl⟩

/-- Settles O47: the request's turn is `serve`, with no turn listed by `defaultMove` and otherwise by `takeTurn`. -/
theorem stepRunsTheDecodedOperation : Obligations.StepRunsTheDecodedOperation := by
  rintro s i rest hd (⟨ht, hp⟩ | hr)
  · rw [step_of_turns_nil ht, defaultMove, if_pos hp, serve_of_decode hd, ht, List.tail_nil, ← ht]
  · obtain ⟨ts, ht⟩ := List.head?_eq_some_iff.1 hr
    rw [step_of_turns_cons ht, ht, List.tail_cons]
    exact serve_of_decode (s := { s with turns := ts }) hd

/-- No move writes CAP (R29). -/
theorem EngineMove.cap_eq {s t : State} (h : EngineMove s t) : t.cap = s.cap := by
  cases h with
  | outside h => exact h.cap
  | admission => simp
  | mismatch => rfl
  | count => rfl
  | deliver => rfl
  | finalize => simp

/-- Settles O55: neither a move of the engine nor RST writes CAP. -/
theorem capacityNeverChanges : Obligations.CapacityNeverChanges := fun s _ =>
  step_keeps (P := fun u => u.cap = s.cap) (fun _ _ hs hm => hm.cap_eq.trans hs) (fun _ hs _ => hs) rfl

/-- Every move extends the record stream, by the record delivered or by nothing (R19). -/
theorem EngineMove.recOut_prefix {s t : State} (h : EngineMove s t) : s.recOut <+: t.recOut := by
  cases h with
  | outside h => rw [h.recOut]
  | admission => simp
  | mismatch => exact List.prefix_rfl
  | count => exact List.prefix_rfl
  | deliver => exact List.prefix_append _ _
  | finalize => simp

/-- Settles O54: the moves extend the stream, and the one other step is the RST in its turn. -/
theorem recordStreamOnlyGrows : Obligations.RecordStreamOnlyGrows := by
  intro s t h
  rcases step_moves h with hm | ⟨hturn, hp, hd, u, _, rfl⟩
  · exact .inl (hm.keeps (P := fun u => s.recOut <+: u.recOut) (fun _ _ hs hm => hs.trans hm.recOut_prefix)
      List.prefix_rfl)
  · exact .inr ⟨hp, hturn, hd, rfl⟩

/-- A micro-step that changes FLC counts a frame-lost match (R98). -/
theorem microStep_flc_changed {s t : State} (h : microStep s = .next t) (hne : t.flc ≠ s.flc) :
    t.flc = s.flc + 1#32 ∧ ∃ p last, s.phase = .scan p last ∧ isFrameAt s.buf p = true ∧
      (recordAt s.buf p).frameLost = true := by
  rcases microStep_cases h with ⟨_, rfl⟩ | ⟨_, _, _, _, ⟨_, rfl⟩ | ⟨_, rfl⟩⟩ |
    ⟨p, last, hp, _, ⟨_, hm, rfl⟩ | ⟨_, _, rfl⟩ | ⟨_, rfl⟩⟩
  · exact absurd rfl hne
  · exact absurd rfl hne
  · exact absurd rfl hne
  · have hcount : (s.countAt p last).flc = countFrame s.flc (recordAt s.buf p) := rfl
    cases hl : (recordAt s.buf p).frameLost with
    | false => exact absurd (by rw [hcount, countFrame, hl]; rfl) hne
    | true => exact ⟨by rw [hcount, countFrame, hl]; rfl, p, last, hp, hm, hl⟩
  · exact absurd rfl hne
  · exact absurd (State.finalize_flc s last) hne

/-- Settles O53: ENC and RDCNT leave FLC alone, RST sets it to 0, and of the micro-steps M-count alone writes it. -/
theorem counterIsWrittenOnlyByPushAndRst : Obligations.CounterIsWrittenOnlyByPushAndRst := by
  refine ⟨fun i s t h hne => ?_, fun s t => microStep_flc_changed⟩
  cases i with
  | enc r =>
    cases h
    exact absurd rfl hne
  | push b => exact .inl ⟨b, rfl⟩
  | rdcnt =>
    cases h
    exact absurd rfl hne
  | rst =>
    obtain ⟨_, rfl⟩ := execRst_next h
    exact .inr ⟨rfl, rfl⟩

end Sys2Proof.Machine
end

section
/-! PROOFS, family 10_state.md. The block's invariant: it holds at reset, every move of the engine keeps it, and so does
RST (10_state.md R24, 41_synchronizer.md R108). -/

namespace Sys2Proof.Machine

/-! ### Memory reads behind the match test -/

/-- The match test reads the first and the last byte of the window (R93). -/
theorem isFrameAt_congr {m n : Memory} {p q : Nat} (h : m.read p = n.read q) (h' : m.read (p + 24) = n.read (q + 24)) :
    isFrameAt m p = isFrameAt n q := by
  rw [isFrameAt, isFrameAt, h, h']

/-- The decoded record depends on the 25 bytes of the window alone (R94). -/
theorem recordAt_congr {m n : Memory} {p : Nat} (h : ∀ k, k < frameSize → m.read (p + k) = n.read (p + k)) :
    recordAt m p = recordAt n p := by
  have hw : m.window p = n.window p := by
    ext k hk
    rw [Memory.getElem_window _ _ _ hk, Memory.getElem_window _ _ _ hk, h k hk]
  rw [recordAt, recordAt, hw]

/-! ### The overflow guard, compaction and M-final, case by case -/

theorem overflowGuard_of_gt {s : State} {n : Nat} (h : s.app + n > s.cap) : s.overflowGuard n = s.clearBuffer :=
  if_pos h

theorem overflowGuard_of_le {s : State} {n : Nat} (h : s.app + n ≤ s.cap) : s.overflowGuard n = s :=
  if_neg (Nat.not_lt.2 h)

theorem compact_of_full {s : State} (h : s.cap - s.app < frameSize) :
    s.compact = { s with buf := s.buf.moveDown s.cons 0 (s.app - s.cons), app := s.app - s.cons, cons := 0 } := if_pos h

theorem compact_of_room {s : State} (h : frameSize ≤ s.cap - s.app) : s.compact = s := if_neg (Nat.not_lt.2 h)

theorem resetIfConsumed_of_eq {s : State} (h : s.cons = s.app) : s.resetIfConsumed = { s with cons := 0, app := 0 } :=
  if_pos h

theorem resetIfConsumed_of_ne {s : State} (h : s.cons ≠ s.app) : s.resetIfConsumed = s := if_neg h

/-- Compaction and full-consumption reset, case by case (R101, R102). -/
theorem compact_reset_cases (s : State) :
    (s.cap - s.app < frameSize ∧ s.compact.resetIfConsumed =
      { s with buf := s.buf.moveDown s.cons 0 (s.app - s.cons), app := s.app - s.cons, cons := 0 }) ∨
    (frameSize ≤ s.cap - s.app ∧ s.cons = s.app ∧ s.compact.resetIfConsumed = { s with cons := 0, app := 0 }) ∨
    (frameSize ≤ s.cap - s.app ∧ s.cons ≠ s.app ∧ s.compact.resetIfConsumed = s) := by
  by_cases hfull : s.cap - s.app < frameSize
  · refine .inl ⟨hfull, ?_⟩
    rw [compact_of_full hfull]
    by_cases he : 0 = s.app - s.cons
    · rw [resetIfConsumed_of_eq he, ← he]
    · rw [resetIfConsumed_of_ne he]
  · have hroom := Nat.not_lt.1 hfull
    rw [compact_of_room hroom]
    by_cases he : s.cons = s.app
    · exact .inr (.inl ⟨hroom, he, resetIfConsumed_of_eq he⟩)
    · exact .inr (.inr ⟨hroom, he, resetIfConsumed_of_ne he⟩)

/-- M-final, case by case: it compacts, or resets the cursors, or only advances CONS (R100 to R102). -/
theorem finalize_cases (s : State) (last : Option Nat) :
    (s.cap - s.app < frameSize ∧ s.finalize last =
      { s with
        buf := s.buf.moveDown (s.consumedBy last) 0 (s.app - s.consumedBy last)
        cons := 0
        app := s.app - s.consumedBy last
        phase := .idle }) ∨
    (frameSize ≤ s.cap - s.app ∧ s.consumedBy last = s.app ∧
      s.finalize last = { s with cons := 0, app := 0, phase := .idle }) ∨
    (frameSize ≤ s.cap - s.app ∧ s.consumedBy last ≠ s.app ∧
      s.finalize last = { s with cons := s.consumedBy last, phase := .idle }) := by
  rw [State.finalize, advanceCons_eq]
  rcases compact_reset_cases { s with cons := s.consumedBy last } with ⟨hfull, e⟩ | ⟨hroom, he, e⟩ | ⟨hroom, hne, e⟩ <;>
    rw [e]
  · exact .inl ⟨hfull, rfl⟩
  · exact .inr (.inl ⟨hroom, he, rfl⟩)
  · exact .inr (.inr ⟨hroom, hne, rfl⟩)

/-- M-final keeps the unconsumed bytes, in order and in number (R101, R102). -/
theorem finalize_keeps_bytes {s : State} {last : Option Nat} (hw : s.buf.wf = true) (h : s.consumedBy last ≤ s.app) :
    (s.finalize last).app - (s.finalize last).cons = s.app - s.consumedBy last ∧
      (s.finalize last).cons ≤ (s.finalize last).app ∧
      ∀ j, j < s.app - s.consumedBy last →
        (s.finalize last).buf.read ((s.finalize last).cons + j) = s.buf.read (s.consumedBy last + j) := by
  rw [State.finalize, advanceCons_eq]
  exact compact_reset_keeps_bytes (u := { s with cons := s.consumedBy last }) hw h

/-! ### The invariant -/

/-- The invariant speaks of the capacity, the buffer, the cursors and the micro-step alone. -/
theorem BlockInv.congr {s t : State} (h : BlockInv s) (hcap : t.cap = s.cap) (hbuf : t.buf = s.buf)
    (hcons : t.cons = s.cons) (happ : t.app = s.app) (hphase : t.phase = s.phase) : BlockInv t where
  bufWf := hbuf ▸ h.bufWf
  bufInside := by rw [hbuf, hcap]; exact h.bufInside
  capHoldsFrame := hcap ▸ h.capHoldsFrame
  consLeApp := by rw [hcons, happ]; exact h.consLeApp
  appLeCap := by rw [happ, hcap]; exact h.appLeCap
  phaseInv := by
    have hinv := h.phaseInv
    unfold State.PhaseInv State.consumedBy at hinv ⊢
    rw [hphase, hbuf, hcons, happ, hcap]
    exact hinv

/-- What the invariant says at an operation boundary. -/
theorem BlockInv.idle {s : State} (h : BlockInv s) (hp : s.phase = .idle) :
    NoMatchBetween s.buf s.cons (s.app + 1 - frameSize) ∧ (s.cons = 0 ∨ s.cap - s.app ≥ frameSize) ∧
      (s.cons = s.app → s.cons = 0) := by
  have hinv := h.phaseInv
  rwa [State.PhaseInv, hp] at hinv

/-- What the invariant says in M-scan. -/
theorem BlockInv.scan {s : State} {p : Nat} {last : Option Nat} (h : BlockInv s) (hp : s.phase = .scan p last) :
    s.cons ≤ s.consumedBy last ∧ s.consumedBy last ≤ p ∧ p ≤ s.app ∧ NoMatchBetween s.buf (s.consumedBy last) p := by
  have hinv := h.phaseInv
  rwa [State.PhaseInv, hp] at hinv

/-- What the invariant says at M-emit. -/
theorem BlockInv.emit {s : State} {p : Nat} {last : Option Nat} {rec : DecRecord} (h : BlockInv s)
    (hp : s.phase = .emit p last rec) :
    s.cons ≤ s.consumedBy last ∧ s.consumedBy last ≤ p ∧ p + frameSize ≤ s.app ∧ isFrameAt s.buf p = true ∧
      rec = recordAt s.buf p := by
  have hinv := h.phaseInv
  rwa [State.PhaseInv, hp] at hinv

/-- An empty range holds no match. -/
theorem noMatchBetween_of_le (m : Memory) {lo hi : Nat} (h : hi ≤ lo) : NoMatchBetween m lo hi :=
  fun _ h1 h2 => absurd (Nat.lt_of_le_of_lt h1 h2) (Nat.not_lt.2 h)

/-- The cleared buffer meets the invariant (R32, R89). -/
theorem BlockInv.clearBuffer {s : State} (h : frameSize ≤ s.cap) (hp : s.phase = .idle) : BlockInv s.clearBuffer where
  bufWf := rfl
  bufInside := fun _ hc => nomatch hc
  capHoldsFrame := h
  consLeApp := Nat.le_refl _
  appLeCap := Nat.zero_le _
  phaseInv := by
    rw [State.PhaseInv, State.clearBuffer_phase, hp]
    exact ⟨noMatchBetween_of_le _ (by simp [frameSize]), .inl rfl, fun _ => rfl⟩

/-- RST at an operation boundary keeps the invariant (R127). -/
theorem BlockInv.recreate {s : State} (h : BlockInv s) (hp : s.phase = .idle) : BlockInv s.recreate :=
  (BlockInv.clearBuffer h.capHoldsFrame hp).congr rfl rfl rfl rfl rfl

theorem BlockInv.overflowGuard {s : State} (h : BlockInv s) (hp : s.phase = .idle) (n : Nat) :
    BlockInv (s.overflowGuard n) := by
  by_cases hfire : s.app + n > s.cap
  · exact overflowGuard_of_gt hfire ▸ BlockInv.clearBuffer h.capHoldsFrame hp
  · exact (overflowGuard_of_le (Nat.not_lt.1 hfire)).symm ▸ h

/-- An append that fits, with the scan's start at CONS, keeps the invariant (R90, R91). -/
theorem BlockInv.append_scan {s : State} {b : List Byte} (h : BlockInv s) (hb : s.app + b.length ≤ s.cap) :
    BlockInv { s.append b with phase := .scan s.cons none } where
  bufWf := Memory.wf_writeList h.bufWf _ _
  bufInside := fun c hc => by
    rcases Memory.mem_writeList hc with hc | ⟨_, hlt⟩
    · exact h.bufInside c hc
    · exact Nat.lt_of_lt_of_le hlt hb
  capHoldsFrame := h.capHoldsFrame
  consLeApp := Nat.le_trans h.consLeApp (Nat.le_add_right _ _)
  appLeCap := hb
  phaseInv := ⟨Nat.le_refl _, Nat.le_refl _, Nat.le_trans h.consLeApp (Nat.le_add_right _ _),
    noMatchBetween_of_le _ (Nat.le_refl _)⟩

/-- A batch's admission keeps the invariant (R89 to R91). -/
theorem BlockInv.admitBatch {s : State} {b : List Byte} (h : BlockInv s) (hp : s.phase = .idle)
    (hb : b.length ≤ s.cap) : BlockInv (s.admitBatch b) :=
  (h.overflowGuard hp b.length).append_scan (admitBatch_app_le hb)

/-- A mismatch keeps the invariant: one more position is no match (R95). -/
theorem BlockInv.mismatch {s : State} {p : Nat} {last : Option Nat} (h : BlockInv s) (hp : s.phase = .scan p last)
    (hw : p + frameSize ≤ s.app) (hm : isFrameAt s.buf p = false) :
    BlockInv { s with phase := .scan (p + 1) last } := by
  obtain ⟨hcons, hlast, _, hno⟩ := h.scan hp
  have hnext : p + 1 ≤ s.app := Nat.le_trans (Nat.add_le_add_left (by decide) p) hw
  refine { h with phaseInv := ⟨hcons, Nat.le_succ_of_le hlast, hnext, fun q h1 h2 => ?_⟩ }
  rcases Nat.lt_succ_iff_lt_or_eq.1 h2 with h2 | rfl
  · exact hno q h1 h2
  · exact hm

/-- M-count keeps the invariant: the record that waits is the one decoded at the match (R94). -/
theorem BlockInv.countAt {s : State} {p : Nat} {last : Option Nat} (h : BlockInv s) (hp : s.phase = .scan p last)
    (hw : p + frameSize ≤ s.app) (hm : isFrameAt s.buf p = true) : BlockInv (s.countAt p last) := by
  obtain ⟨hcons, hlast, _, _⟩ := h.scan hp
  exact { h with phaseInv := ⟨hcons, hlast, hw, hm, rfl⟩ }

/-- M-emit keeps the invariant: the scan goes on behind the frame (R96). -/
theorem BlockInv.deliver {s : State} {p : Nat} {last : Option Nat} {rec : DecRecord} (h : BlockInv s)
    (hp : s.phase = .emit p last rec) : BlockInv (s.deliver p rec) := by
  obtain ⟨hcons, hlast, hw, _, _⟩ := h.emit hp
  exact { h with
    phaseInv := ⟨Nat.le_add_right_of_le (Nat.le_trans hcons hlast), Nat.le_refl _, hw,
      noMatchBetween_of_le _ (Nat.le_refl _)⟩ }

/-- M-final lists no offset that the buffer did not list, or one below APP (R101). -/
theorem finalize_bufInside {s : State} {last : Option Nat} (h : BlockInv s) :
    ∀ c ∈ (s.finalize last).buf, c.1 < s.cap := by
  intro c hc
  rcases finalize_cases s last with ⟨_, e⟩ | ⟨_, _, e⟩ | ⟨_, _, e⟩ <;> rw [e] at hc
  · rcases Memory.mem_moveDown hc with hc | ⟨_, hlt⟩
    · exact h.bufInside c hc
    · have := h.appLeCap
      omega
  · exact h.bufInside c hc
  · exact h.bufInside c hc

theorem finalize_bufWf {s : State} (last : Option Nat) (h : s.buf.wf = true) : (s.finalize last).buf.wf = true := by
  rcases finalize_cases s last with ⟨_, e⟩ | ⟨_, _, e⟩ | ⟨_, _, e⟩ <;> rw [e]
  · exact Memory.wf_moveDown h _ _ _
  · exact h
  · exact h

/-- Behind M-final CONS is 0 or a frame fits behind APP, and equal cursors are 0 (R108 (c), (d)). -/
theorem finalize_cursors (s : State) (last : Option Nat) :
    ((s.finalize last).cons = 0 ∨ s.cap - (s.finalize last).app ≥ frameSize) ∧
      ((s.finalize last).cons = (s.finalize last).app → (s.finalize last).cons = 0) := by
  rcases finalize_cases s last with ⟨_, e⟩ | ⟨_, _, e⟩ | ⟨hroom, hne, e⟩ <;> rw [e]
  · exact ⟨.inl rfl, fun _ => rfl⟩
  · exact ⟨.inl rfl, fun _ => rfl⟩
  · exact ⟨.inr hroom, fun he => absurd he hne⟩

/-- Behind M-final no position from CONS on is a match, where no candidate from the last match on was one (R108 (b)). -/
theorem finalize_noMatch {s : State} {last : Option Nat} (hw : s.buf.wf = true) (h : s.consumedBy last ≤ s.app)
    (hno : NoMatchBetween s.buf (s.consumedBy last) (s.app + 1 - frameSize)) :
    NoMatchBetween (s.finalize last).buf (s.finalize last).cons ((s.finalize last).app + 1 - frameSize) := by
  intro q h1 h2
  obtain ⟨hlen, _, hread⟩ := finalize_keeps_bytes hw h
  obtain ⟨j, rfl⟩ := Nat.exists_eq_add_of_le h1
  have h25 : frameSize = 25 := rfl
  rw [isFrameAt_congr (hread j (by omega)) (by rw [Nat.add_assoc, Nat.add_assoc]; exact hread (j + 24) (by omega))]
  exact hno _ (by omega) (by omega)

/-- M-final keeps the invariant (R108). -/
theorem BlockInv.finalize {s : State} {p : Nat} {last : Option Nat} (h : BlockInv s) (hp : s.phase = .scan p last)
    (hw : s.app < p + frameSize) : BlockInv (s.finalize last) := by
  obtain ⟨_, hlast, hle, hno⟩ := h.scan hp
  have happ : s.consumedBy last ≤ s.app := Nat.le_trans hlast hle
  exact {
    bufWf := finalize_bufWf last h.bufWf
    bufInside := by rw [State.finalize_cap]; exact finalize_bufInside h
    capHoldsFrame := by rw [State.finalize_cap]; exact h.capHoldsFrame
    consLeApp := (finalize_keeps_bytes h.bufWf happ).2.1
    appLeCap := by rw [State.finalize_cap]; exact Nat.le_trans (finalize_app_le s last) h.appLeCap
    phaseInv := by
      rw [State.PhaseInv, State.finalize_phase, State.finalize_cap]
      exact ⟨finalize_noMatch h.bufWf happ fun q h1 h2 => hno q h1 (by omega), finalize_cursors s last⟩ }

/-- Every move of the engine keeps the invariant. -/
theorem EngineMove.blockInv {s t : State} (h : BlockInv s) (hm : EngineMove s t) : BlockInv t := by
  cases hm with
  | outside e => exact h.congr e.cap e.buf e.cons e.app e.phase
  | admission hp hb => exact h.admitBatch hp hb
  | mismatch hp hw hm => exact h.mismatch hp hw hm
  | count hp hw hm => exact h.countAt hp hw hm
  | deliver hp => exact h.deliver hp
  | finalize hp hw => exact h.finalize hp hw

/-- Settles O49: every move of the engine keeps the invariant, and RST at an operation boundary does. -/
theorem invariantKeptByEveryStep : Obligations.InvariantKeptByEveryStep := fun _ _ =>
  step_keeps (fun _ _ => EngineMove.blockInv) fun _ => BlockInv.recreate

/-- Settles O50: the reset state is its own cleared buffer, and its capacity holds a frame (R7). -/
theorem resetMeetsTheInvariant : Obligations.ResetMeetsTheInvariant :=
  BlockInv.clearBuffer (s := State.reset) (Nat.le_add_left 25 Config.spareCap) rfl

end Sys2Proof.Machine
end

section
/-! PROOFS, family 10_state.md. More results on `enc_out` and `fl_count`: what the engine does is the same with them
(20_memory.md R48), said once for any change of these two ports. -/

namespace Sys2Proof.Machine

/-- The state with the results on `enc_out` and `fl_count` changed. -/
def State.mapPorts (s : State) (f : List Frame → List Frame) (g : List Count → List Count) : State :=
  { s with encOut := f s.encOut, flCount := g s.flCount }

section
variable (f : List Frame → List Frame) (g : List Count → List Count)

@[simp] theorem mapPorts_phase (s : State) : (s.mapPorts f g).phase = s.phase := rfl

theorem overflowGuard_mapPorts (s : State) (n : Nat) :
    (s.mapPorts f g).overflowGuard n = (s.overflowGuard n).mapPorts f g := by
  rw [State.overflowGuard, State.overflowGuard, apply_ite (fun u : State => u.mapPorts f g)]
  rfl

theorem admitBatch_mapPorts (s : State) (b : List Byte) :
    (s.mapPorts f g).admitBatch b = (s.admitBatch b).mapPorts f g := by
  rw [State.admitBatch, overflowGuard_mapPorts]
  rfl

theorem advanceCons_mapPorts (s : State) (last : Option Nat) :
    (s.mapPorts f g).advanceCons last = (s.advanceCons last).mapPorts f g := by
  cases last <;> rfl

theorem compact_mapPorts (s : State) : (s.mapPorts f g).compact = s.compact.mapPorts f g := by
  rw [State.compact, State.compact, apply_ite (fun u : State => u.mapPorts f g)]
  rfl

theorem resetIfConsumed_mapPorts (s : State) : (s.mapPorts f g).resetIfConsumed = s.resetIfConsumed.mapPorts f g := by
  rw [State.resetIfConsumed, State.resetIfConsumed, apply_ite (fun u : State => u.mapPorts f g)]
  rfl

theorem finalize_mapPorts (s : State) (last : Option Nat) :
    (s.mapPorts f g).finalize last = (s.finalize last).mapPorts f g := by
  rw [State.finalize, advanceCons_mapPorts, compact_mapPorts, resetIfConsumed_mapPorts]
  rfl

theorem scanStep_mapPorts (s : State) (p : Nat) (last : Option Nat) :
    (s.mapPorts f g).scanStep p last = (s.scanStep p last).mapPorts f g := by
  by_cases hw : p + frameSize ≤ s.app
  · cases hm : isFrameAt s.buf p with
    | true =>
      rw [scanStep_match last hw hm]
      exact scanStep_match (s := s.mapPorts f g) last hw hm
    | false =>
      rw [scanStep_mismatch last hw hm]
      exact scanStep_mismatch (s := s.mapPorts f g) last hw hm
  · rw [scanStep_done last (Nat.not_le.1 hw), ← finalize_mapPorts]
    exact scanStep_done (s := s.mapPorts f g) last (Nat.not_le.1 hw)

theorem microStep_mapPorts (s : State) :
    microStep (s.mapPorts f g) = mapNext (fun t => t.mapPorts f g) (microStep s) := by
  cases hp : s.phase with
  | idle =>
    rw [microStep_idle hp]
    exact microStep_idle (s := s.mapPorts f g) hp
  | scan p last =>
    by_cases hc : s.app ≤ s.cap
    · rw [microStep_scan hp hc, mapNext, ← scanStep_mapPorts]
      exact microStep_scan (s := s.mapPorts f g) hp hc
    · rw [microStep_scan_fault hp (Nat.not_le.1 hc)]
      exact microStep_scan_fault (s := s.mapPorts f g) hp (Nat.not_le.1 hc)
  | emit p last rec =>
    cases hr : s.ready with
    | true =>
      rw [microStep_emit_ready hp hr]
      exact microStep_emit_ready (s := s.mapPorts f g) hp hr
    | false =>
      rw [microStep_emit_held hp hr]
      exact microStep_emit_held (s := s.mapPorts f g) hp hr

theorem runSync_mapPorts (k : Nat) (s : State) :
    runSync k (s.mapPorts f g) = mapNext (fun t => t.mapPorts f g) (runSync k s) := by
  induction k generalizing s with
  | zero => rfl
  | succ k ih =>
    have hsettled : (s.mapPorts f g).settled = s.settled := rfl
    rw [runSync, runSync, hsettled, microStep_mapPorts]
    split
    · rfl
    · cases microStep s with
      | next u => exact ih u
      | fault e => rfl
      | refused r => rfl

theorem syncRun_mapPorts (s : State) :
    syncRun (s.mapPorts f g) = mapNext (fun t => t.mapPorts f g) (syncRun s) := runSync_mapPorts f g _ s

theorem consumerTake_mapPorts (s : State) : (s.mapPorts f g).consumerTake = s.consumerTake.mapPorts f g := by
  unfold State.consumerTake
  rw [mapPorts_phase]
  split <;> rfl

theorem execRst_mapPorts (s : State) :
    execRst (s.mapPorts f g) = mapNext (fun t => t.mapPorts f g) (execRst s) := by
  by_cases hp : s.phase = .idle
  · rw [execRst_idle hp]
    exact execRst_idle (s := s.mapPorts f g) hp
  · rw [execRst_busy hp]
    exact execRst_busy (s := s.mapPorts f g) hp

theorem continuePush_mapPorts (s : State) :
    continuePush (s.mapPorts f g) = mapNext (fun t => t.mapPorts f g) (continuePush s) := by
  have hturns : (s.mapPorts f g).turns = s.turns := rfl
  rw [continuePush, continuePush, hturns, syncRun_mapPorts]
  split <;> rfl

theorem execPush_mapPorts (b : List Byte) (s : State) :
    execPush b (s.mapPorts f g) = mapNext (fun t => t.mapPorts f g) (execPush b s) := by
  have hlong : (s.mapPorts f g).tooLong b = s.tooLong b := rfl
  rw [execPush, execPush, mapPorts_phase, hlong, admitBatch_mapPorts, continuePush_mapPorts]
  split
  · rfl
  · split
    · rfl
    · split <;> rfl

/-- A turn that is no request's is the same with other results on the two ports (R86). -/
theorem takeTurn_mapPorts {x : Turn} (hx : x ≠ .request) (s : State) :
    takeTurn x (s.mapPorts f g) = mapNext (fun t => t.mapPorts f g) (takeTurn x s) := by
  cases x with
  | sync => exact microStep_mapPorts f g s
  | take => exact congrArg Host.Outcome.next (consumerTake_mapPorts f g s)
  | ready b => rfl
  | request => exact absurd rfl hx

end

/-- Every operation but ENC is the same with one more frame on `enc_out` before it (R48). -/
theorem exec_withEncOut {i : Instr} (hi : ∀ r, i ≠ .enc r) (F : Frame) (s : State) :
    exec i (s.withEncOut F) = mapNext (fun t => t.withEncOut F) (exec i s) := by
  cases i with
  | enc r => exact absurd rfl (hi r)
  | push b => exact execPush_mapPorts (· ++ [F]) id b s
  | rdcnt => rfl
  | rst => exact execRst_mapPorts (· ++ [F]) id s

/-- Every operation but RDCNT is the same with one more value on `fl_count` before it (R48). -/
theorem exec_withFlCount {i : Instr} (hi : i ≠ .rdcnt) (c : Count) (s : State) :
    exec i (s.withFlCount c) = mapNext (fun t => t.withFlCount c) (exec i s) := by
  cases i with
  | enc r => rfl
  | push b => exact execPush_mapPorts id (· ++ [c]) b s
  | rdcnt => exact absurd rfl hi
  | rst => exact execRst_mapPorts id (· ++ [c]) s

/-- Settles O19: one more result on `enc_out` or `fl_count` is a change of these ports, with which operations, turns and
runs of micro-steps commute. -/
theorem encCommutes : Obligations.EncCommutes :=
  ⟨fun _ F s hi => exec_withEncOut hi F s, fun _ c s hi => exec_withFlCount hi c s,
    fun _ F c s hx => ⟨takeTurn_mapPorts (· ++ [F]) id hx s, takeTurn_mapPorts id (· ++ [c]) hx s⟩,
    fun F c s => ⟨syncRun_mapPorts (· ++ [F]) id s, syncRun_mapPorts id (· ++ [c]) s⟩⟩

end Sys2Proof.Machine
end

section
/-! PROOFS, family 10_state.md. Stale bytes (10_state.md R23, R31): a second buffer that agrees with the state's on
`[CONS, APP)` goes through every operation beside it, and agrees with it there again. -/

namespace Sys2Proof.Machine

/-- The state with another buffer. -/
def State.withBuf (s : State) (m : Memory) : State := { s with buf := m }

@[simp] theorem withBuf_buf (s : State) (m : Memory) : (s.withBuf m).buf = m := rfl

@[simp] theorem withBuf_phase (s : State) (m : Memory) : (s.withBuf m).phase = s.phase := rfl

theorem advanceCons_withBuf (s : State) (m : Memory) (last : Option Nat) :
    (s.withBuf m).advanceCons last = (s.advanceCons last).withBuf m := by
  cases last <;> rfl

theorem resetIfConsumed_withBuf (s : State) (m : Memory) :
    (s.withBuf m).resetIfConsumed = s.resetIfConsumed.withBuf m := by
  rw [State.resetIfConsumed, State.resetIfConsumed, apply_ite (fun u : State => u.withBuf m)]
  rfl

theorem compact_withBuf (s : State) (m : Memory) : ∃ n, (s.withBuf m).compact = s.compact.withBuf n := by
  by_cases h : s.cap - s.app < frameSize
  · rw [compact_of_full h, compact_of_full (s := s.withBuf m) h]
    exact ⟨_, rfl⟩
  · rw [compact_of_room (Nat.not_lt.1 h), compact_of_room (s := s.withBuf m) (Nat.not_lt.1 h)]
    exact ⟨m, rfl⟩

/-- M-final of another buffer differs in the buffer alone. -/
theorem finalize_withBuf (s : State) (m : Memory) (last : Option Nat) :
    ∃ n, (s.withBuf m).finalize last = (s.finalize last).withBuf n := by
  obtain ⟨n, hn⟩ := compact_withBuf (s.advanceCons last) m
  refine ⟨n, ?_⟩
  rw [State.finalize, State.finalize, advanceCons_withBuf, hn, resetIfConsumed_withBuf]
  rfl

/-- The invariant holds of `s`, and `m` is a buffer in canonical form that differs from its own at most in stale
bytes. -/
structure StalePair (s : State) (m : Memory) : Prop where
  inv : BlockInv s
  wf : m.wf = true
  same : ∀ o, s.cons ≤ o → o < s.app → m.read o = s.buf.read o

/-- Two outcomes alike: next states that are a pair, or one refusal. -/
inductive StaleOutcomes : Host.Outcome State Fault Refusal → Host.Outcome State Fault Refusal → Prop where
  | next {s : State} {m : Memory} (h : StalePair s m) : StaleOutcomes (.next s) (.next (s.withBuf m))
  | refused (r : Refusal) : StaleOutcomes (.refused r) (.refused r)

theorem StaleOutcomes.sameOutcomeButStale {x y : Host.Outcome State Fault Refusal} (h : StaleOutcomes x y) :
    SameOutcomeButStale x y := by
  cases h with
  | next h => exact ⟨rfl, h.same⟩
  | refused r => exact rfl

/-! ### The engine's moves on a pair -/

namespace StalePair

variable {s : State} {m : Memory}

/-- A move that leaves the buffer and the cursors alone keeps the pair. -/
theorem move {t : State} (h : StalePair s m) (hm : EngineMove s t) (hb : t.buf = s.buf) (hc : t.cons = s.cons)
    (ha : t.app = s.app) : StalePair t m where
  inv := hm.blockInv h.inv
  wf := h.wf
  same := by rw [hb, hc, ha]; exact h.same

theorem outside {t : State} (h : StalePair s m) (e : SameEngine s t) : StalePair t m :=
  h.move (.outside e) e.buf e.cons e.app

/-- A candidate from CONS on is a match in both buffers or in neither. -/
theorem isFrameAt_eq (h : StalePair s m) {p : Nat} (hp : s.cons ≤ p) (hw : p + frameSize ≤ s.app) :
    isFrameAt m p = isFrameAt s.buf p := by
  have h25 : frameSize = 25 := rfl
  exact isFrameAt_congr (h.same p hp (by omega)) (h.same (p + 24) (by omega) (by omega))

/-- The record at a candidate from CONS on is the same in both buffers. -/
theorem recordAt_eq (h : StalePair s m) {p : Nat} (hp : s.cons ≤ p) (hw : p + frameSize ≤ s.app) :
    recordAt m p = recordAt s.buf p :=
  recordAt_congr fun k hk => h.same (p + k) (by omega) (by omega)

theorem countAt_withBuf (h : StalePair s m) {p : Nat} (last : Option Nat) (hp : s.cons ≤ p)
    (hw : p + frameSize ≤ s.app) : (s.withBuf m).countAt p last = (s.countAt p last).withBuf m := by
  rw [State.countAt, withBuf_buf, h.recordAt_eq hp hw]
  rfl

/-- M-final keeps the bytes behind the last match, which are the same in both buffers. -/
theorem finalize (h : StalePair s m) {p : Nat} {last : Option Nat} (hp : s.phase = .scan p last)
    (hw : s.app < p + frameSize) :
    ∃ n, (s.withBuf m).finalize last = (s.finalize last).withBuf n ∧ StalePair (s.finalize last) n := by
  obtain ⟨hcons, hlast, hle, _⟩ := h.inv.scan hp
  have happ : s.consumedBy last ≤ s.app := Nat.le_trans hlast hle
  obtain ⟨hlen, _, hread⟩ := finalize_keeps_bytes h.inv.bufWf happ
  obtain ⟨_, _, hread'⟩ := finalize_keeps_bytes (s := s.withBuf m) h.wf happ
  have hwf := finalize_bufWf (s := s.withBuf m) last h.wf
  obtain ⟨n, hn⟩ := finalize_withBuf s m last
  rw [hn] at hread' hwf
  refine ⟨n, hn, h.inv.finalize hp hw, hwf, fun o h1 h2 => ?_⟩
  obtain ⟨j, rfl⟩ := Nat.exists_eq_add_of_le h1
  have hj : j < s.app - s.consumedBy last := by omega
  calc n.read ((s.finalize last).cons + j)
      = m.read (s.consumedBy last + j) := hread' j hj
    _ = s.buf.read (s.consumedBy last + j) := h.same _ (Nat.le_add_right_of_le hcons) (by omega)
    _ = (s.finalize last).buf.read ((s.finalize last).cons + j) := (hread j hj).symm

/-- The guard clears both buffers or leaves both (R89). -/
theorem overflowGuard (h : StalePair s m) (hp : s.phase = .idle) (n : Nat) :
    ∃ m', (s.withBuf m).overflowGuard n = (s.overflowGuard n).withBuf m' ∧ StalePair (s.overflowGuard n) m' := by
  by_cases hfire : s.app + n > s.cap
  · rw [overflowGuard_of_gt hfire, overflowGuard_of_gt (s := s.withBuf m) hfire]
    exact ⟨Memory.cleared, rfl, BlockInv.clearBuffer h.inv.capHoldsFrame hp, rfl, fun _ _ _ => rfl⟩
  · rw [overflowGuard_of_le (Nat.not_lt.1 hfire), overflowGuard_of_le (s := s.withBuf m) (Nat.not_lt.1 hfire)]
    exact ⟨m, rfl, h⟩

/-- The append writes the same bytes to both buffers (R90). -/
theorem append_scan (h : StalePair s m) {b : List Byte} (hb : s.app + b.length ≤ s.cap) :
    StalePair { s.append b with phase := .scan s.cons none } (m.writeList s.app b) where
  inv := h.inv.append_scan hb
  wf := Memory.wf_writeList h.wf _ _
  same := fun o h1 h2 => by
    change o < s.app + b.length at h2
    change _ = (s.buf.writeList s.app b).read o
    rw [Memory.read_writeList h.wf, Memory.read_writeList h.inv.bufWf]
    by_cases ho : s.app ≤ o
    · rw [if_pos ⟨ho, h2⟩, if_pos ⟨ho, h2⟩]
    · rw [if_neg (by omega), if_neg (by omega)]
      exact h.same o h1 (Nat.not_le.1 ho)

/-- A batch's admission keeps the pair (R89 to R91). -/
theorem admitBatch (h : StalePair s m) {b : List Byte} (hp : s.phase = .idle) (hb : b.length ≤ s.cap) :
    ∃ n, (s.withBuf m).admitBatch b = (s.admitBatch b).withBuf n ∧ StalePair (s.admitBatch b) n := by
  obtain ⟨m', he, hpair⟩ := h.overflowGuard hp b.length
  refine ⟨_, ?_, hpair.append_scan (admitBatch_app_le hb)⟩
  rw [State.admitBatch, he]
  rfl

/-! ### Micro-steps, operations and steps on a pair -/

theorem microStep_outcomes (h : StalePair s m) : StaleOutcomes (microStep s) (microStep (s.withBuf m)) := by
  cases hp : s.phase with
  | idle =>
    rw [microStep_idle hp, microStep_idle (s := s.withBuf m) hp]
    exact .next h
  | scan p last =>
    rw [microStep_scan hp h.inv.appLeCap, microStep_scan (s := s.withBuf m) hp h.inv.appLeCap]
    obtain ⟨hcons, hlast, _, _⟩ := h.inv.scan hp
    have hfrom : s.cons ≤ p := Nat.le_trans hcons hlast
    by_cases hw : p + frameSize ≤ s.app
    · have htest := h.isFrameAt_eq hfrom hw
      cases hm : isFrameAt s.buf p with
      | true =>
        rw [scanStep_match last hw hm, scanStep_match (s := s.withBuf m) last hw (htest.trans hm),
          h.countAt_withBuf last hfrom hw]
        exact .next (h.move (.count hp hw hm) rfl rfl rfl)
      | false =>
        rw [scanStep_mismatch last hw hm, scanStep_mismatch (s := s.withBuf m) last hw (htest.trans hm)]
        exact .next (h.move (.mismatch hp hw hm) rfl rfl rfl)
    · obtain ⟨n, hn, hpair⟩ := h.finalize hp (Nat.not_le.1 hw)
      rw [scanStep_done last (Nat.not_le.1 hw), scanStep_done (s := s.withBuf m) last (Nat.not_le.1 hw), hn]
      exact .next hpair
  | emit p last rec =>
    cases hr : s.ready with
    | true =>
      rw [microStep_emit_ready hp hr, microStep_emit_ready (s := s.withBuf m) hp hr]
      exact .next (h.move (.deliver hp) rfl rfl rfl)
    | false =>
      rw [microStep_emit_held hp hr, microStep_emit_held (s := s.withBuf m) hp hr]
      exact .next h

theorem runSync_outcomes (h : StalePair s m) (k : Nat) : StaleOutcomes (runSync k s) (runSync k (s.withBuf m)) := by
  induction k generalizing s m with
  | zero => exact .next h
  | succ k ih =>
    have hsettled : (s.withBuf m).settled = s.settled := rfl
    rw [runSync, runSync, hsettled]
    have hmicro := h.microStep_outcomes
    generalize microStep s = x at hmicro ⊢
    generalize microStep (s.withBuf m) = y at hmicro ⊢
    split
    · exact .next h
    · cases hmicro with
      | next hpair => exact ih hpair
      | refused r => exact .refused r

theorem syncRun_outcomes (h : StalePair s m) : StaleOutcomes (syncRun s) (syncRun (s.withBuf m)) := h.runSync_outcomes _

theorem consumerTake_outcomes (h : StalePair s m) :
    StaleOutcomes (.next s.consumerTake) (.next (s.withBuf m).consumerTake) := by
  unfold State.consumerTake
  rw [withBuf_phase]
  split
  · next hp => exact .next (h.move (.deliver hp) rfl rfl rfl)
  · exact .next h
  · exact .next h

theorem execPush_outcomes (h : StalePair s m) (b : List Byte) :
    StaleOutcomes (execPush b s) (execPush b (s.withBuf m)) := by
  have hlong : (s.withBuf m).tooLong b = s.tooLong b := rfl
  rw [execPush, execPush, withBuf_phase, hlong]
  split
  · exact .refused _
  · next hp =>
    split
    · exact .refused _
    · next hb =>
      split
      · exact .next h
      · obtain ⟨n, hn, hpair⟩ := h.admitBatch (b := b) (not_not.1 hp) (by simpa [State.tooLong] using hb)
        have hturns : ((s.admitBatch b).withBuf n).turns = (s.admitBatch b).turns := rfl
        rw [hn, continuePush, continuePush, hturns]
        split
        · exact hpair.syncRun_outcomes
        · exact .next hpair

theorem execRst_outcomes (h : StalePair s m) : StaleOutcomes (execRst s) (execRst (s.withBuf m)) := by
  by_cases hp : s.phase = .idle
  · rw [execRst_idle hp, execRst_idle (s := s.withBuf m) hp]
    exact .next (m := Memory.cleared) ⟨h.inv.recreate hp, rfl, fun _ _ _ => rfl⟩
  · rw [execRst_busy hp, execRst_busy (s := s.withBuf m) hp]
    exact .refused _

theorem exec_outcomes (h : StalePair s m) (i : Instr) : StaleOutcomes (exec i s) (exec i (s.withBuf m)) := by
  cases i with
  | enc r => exact .next (h.outside (.of_outside ..))
  | push b => exact h.execPush_outcomes b
  | rdcnt => exact .next (h.outside (.of_outside ..))
  | rst => exact h.execRst_outcomes

theorem serve_outcomes (h : StalePair s m) : StaleOutcomes (serve s) (serve (s.withBuf m)) := by
  have hreq : (s.withBuf m).requests = s.requests := rfl
  rw [serve, serve, hreq]
  split
  · next i rest _ =>
    exact (h.outside (t := { s with requests := rest }) (.of_outside ..)).exec_outcomes i
  · exact .next h
  · exact .refused _

theorem takeTurn_outcomes (h : StalePair s m) (x : Turn) : StaleOutcomes (takeTurn x s) (takeTurn x (s.withBuf m)) := by
  cases x with
  | sync => exact h.microStep_outcomes
  | take => exact h.consumerTake_outcomes
  | ready b => exact .next (h.outside (.of_outside ..))
  | request => exact h.serve_outcomes

theorem defaultMove_outcomes (h : StalePair s m) : StaleOutcomes (defaultMove s) (defaultMove (s.withBuf m)) := by
  rw [defaultMove, defaultMove, withBuf_phase]
  split
  · exact h.serve_outcomes
  · exact h.syncRun_outcomes

theorem step_outcomes (h : StalePair s m) : StaleOutcomes (step s) (step (s.withBuf m)) := by
  cases ht : s.turns with
  | nil =>
    rw [step_of_turns_nil ht, step_of_turns_nil (s := s.withBuf m) ht]
    exact h.defaultMove_outcomes
  | cons x ts =>
    rw [step_of_turns_cons ht, step_of_turns_cons (s := s.withBuf m) ht]
    exact (h.outside (t := { s with turns := ts }) (.of_outside ..)).takeTurn_outcomes x

end StalePair

/-- Settles O56: two states that differ only in stale bytes are a state and a second buffer, kept so by the step. -/
theorem staleBytesAreNotObservable : Obligations.StaleBytesAreNotObservable := by
  rintro s t hinv hwf ⟨ht, hsame⟩
  rw [ht]
  exact (StalePair.step_outcomes ⟨hinv, hwf, hsame⟩).sameOutcomeButStale

end Sys2Proof.Machine
end

section
/-! PROOFS, family 20_memory.md. Where every channel bit stands in a frame (20_memory.md R37), and where the bytes of a
batch stand in the buffer (R36). -/

namespace Sys2Proof.Machine

/-- A bit of a masked channel is that bit of the channel input (R76). -/
theorem getLsbD_maskedChannels (r : EncRecord) (i : Fin 16) {j : Nat} (hj : j < 11) :
    ((maskedChannels r).get i).getLsbD j = (r.ch.get i).getLsbD j := by
  simp [maskedChannels, maskChannel, Vector.get_eq_getElem, hj]

/-- Settles O7: bit `n` of the packed payload is bit `n % 8` of its byte `n / 8`, and packing puts bit `j` of channel
`i` at `n = 11i + j`. -/
theorem encodedPayloadBits : Obligations.EncodedPayloadBits := by
  intro r i j hj
  have hi := i.isLt
  rw [getElem_encodeFrame_payload r _ (by omega), getLsbD_payloadByte _ _ _ (Nat.mod_lt _ (by decide)),
    Nat.div_add_mod, getLsbD_packChannels _ i j hj, getLsbD_maskedChannels r i hj]

/-- Settles O8: unpacking reads channel bit `j` at payload bit `n = 11i + j`, which is bit `n % 8` of payload byte
`n / 8`. -/
theorem decodedPayloadBits : Obligations.DecodedPayloadBits := by
  intro F i j hj
  have hi := i.isLt
  have hbyte := getLsbD_payloadOf F ⟨(11 * i.val + j) / 8, by omega⟩ ((11 * i.val + j) % 8)
    (Nat.mod_lt _ (by decide))
  rw [Nat.div_add_mod, Vector.get_eq_getElem] at hbyte
  exact (getLsbD_unpackChannels (payloadOf F) i j hj).trans hbyte

theorem overflowGuard_bufWf {s : State} (h : s.buf.wf = true) (n : Nat) : (s.overflowGuard n).buf.wf = true := by
  by_cases hfire : s.app + n > s.cap
  · rw [overflowGuard_of_gt hfire]
    rfl
  · rwa [overflowGuard_of_le (Nat.not_lt.1 hfire)]

/-- Settles O24: guard and append are one `writeList` behind the APP that the guard left, and a guard that fired
left 0. -/
theorem appendPlacesTheBatch : Obligations.AppendPlacesTheBatch := by
  intro b s hwf hb
  have hread := Memory.read_writeList (overflowGuard_bufWf hwf b.length) (s.overflowGuard b.length).app b
  refine ⟨rfl, (admitBatch_app_le hb).trans_eq (State.admitBatch_cap s b), rfl, hread, fun hfire => ?_⟩
  rw [State.afterAppend]
  rw [overflowGuard_of_gt hfire] at hread ⊢
  refine ⟨rfl, Nat.zero_add _, fun j hj => ?_⟩
  exact (hread j).trans (if_pos ⟨Nat.zero_le _, by simpa using hj⟩)

end Sys2Proof.Machine
end

section
/-! PROOFS, family 20_memory.md. A PUSH with other agents' moves between its micro-steps (20_memory.md R47,
41_synchronizer.md R86): how far it has come is the list of the positions it has counted, which its own moves lengthen
and ENC, RDCNT and the consumer's readiness leave alone. -/

namespace Sys2Proof.Machine

/-! ### Equal engines -/

namespace SameEngine

variable {s t u : State}

theorem trans (h : SameEngine s t) (h' : SameEngine t u) : SameEngine s u where
  cap := h'.cap.trans h.cap
  buf := h'.buf.trans h.buf
  cons := h'.cons.trans h.cons
  app := h'.app.trans h.app
  flc := h'.flc.trans h.flc
  phase := h'.phase.trans h.phase
  recOut := h'.recOut.trans h.recOut

theorem advanceCons (h : SameEngine s t) (last : Option Nat) :
    SameEngine (s.advanceCons last) (t.advanceCons last) := by
  cases last with
  | none => exact h
  | some e => exact { h with cons := rfl }

theorem compact (h : SameEngine s t) : SameEngine s.compact t.compact := by
  unfold State.compact
  rw [h.cap, h.buf, h.cons, h.app]
  split
  · exact { h with cap := rfl, buf := rfl, cons := rfl, app := rfl }
  · exact h

theorem resetIfConsumed (h : SameEngine s t) : SameEngine s.resetIfConsumed t.resetIfConsumed := by
  unfold State.resetIfConsumed
  rw [h.cons, h.app]
  split
  · exact { h with cons := rfl, app := rfl }
  · exact h

/-- M-final of equal engines leaves equal engines. -/
theorem finalize (h : SameEngine s t) (last : Option Nat) : SameEngine (s.finalize last) (t.finalize last) :=
  { (h.advanceCons last).compact.resetIfConsumed with phase := rfl }

end SameEngine

/-! ### More positions counted -/

/-- Counting one more match (R98). -/
theorem emitted_flc_append (u : State) (qs : List Nat) (p : Nat) :
    (u.emitted (qs ++ [p])).flc = countFrame (u.emitted qs).flc (recordAt u.buf p) := by
  simp only [State.emitted, List.map_append, List.map_singleton, countFrame, countLost, List.countP_append,
    List.countP_singleton, BitVec.ofNat_add, BitVec.add_assoc]
  split <;> simp

theorem emitted_recOut_append (u : State) (qs : List Nat) (p : Nat) :
    (u.emitted (qs ++ [p])).recOut = (u.emitted qs).recOut ++ [recordAt u.buf p] := by
  simp [State.emitted]

theorem endOf_append_singleton (last : Option Nat) (qs : List Nat) (p : Nat) :
    endOf last (qs ++ [p]) = some (p + frameSize) := by
  simp [endOf]

/-! ### How far a PUSH has come -/

/-- From `u`, a batch just appended, the engine of `t` has come as far as the matches at `qs` counted: it scans behind
them, or holds the last of them at M-emit, or they are all the matches and M-final is done. -/
inductive PushReached (u : State) : List Nat → State → Prop where
  | scan {qs : List Nat} {t : State} (p : Nat)
      (hrest : u.matchedPositions = qs ++ greedyAt (isFrameAt u.buf) u.app p)
      (h : SameEngine { u.emitted qs with phase := .scan p (endOf none qs) } t) : PushReached u qs t
  | emit {qs : List Nat} {t : State} (p : Nat)
      (hrest : u.matchedPositions = (qs ++ [p]) ++ greedyAt (isFrameAt u.buf) u.app (p + frameSize))
      (h : SameEngine
        { u.emitted qs with
          flc := (u.emitted (qs ++ [p])).flc
          phase := .emit p (endOf none qs) (recordAt u.buf p) } t) : PushReached u (qs ++ [p]) t
  | done {t : State}
      (h : SameEngine ((u.emitted u.matchedPositions).finalize (endOf none u.matchedPositions)) t) :
      PushReached u u.matchedPositions t

namespace PushReached

variable {u t t' : State} {qs : List Nat}

theorem outside (h : PushReached u qs t) (e : SameEngine t t') : PushReached u qs t' := by
  cases h with
  | scan p hrest h => exact .scan p hrest (h.trans e)
  | emit p hrest h => exact .emit p hrest (h.trans e)
  | done h => exact .done (h.trans e)

/-- Where the synchronizer scans, it has counted the matches before its position. -/
theorem of_scan {p : Nat} {last : Option Nat} (h : PushReached u qs t) (hp : t.phase = .scan p last) :
    last = endOf none qs ∧ u.matchedPositions = qs ++ greedyAt (isFrameAt u.buf) u.app p ∧
      SameEngine { u.emitted qs with phase := .scan p last } t := by
  cases h with
  | scan p' hrest h =>
    obtain ⟨rfl, rfl⟩ := Phase.scan.inj (h.phase.symm.trans hp)
    exact ⟨rfl, hrest, h⟩
  | emit p' _ h => cases h.phase.symm.trans hp
  | done h => cases h.phase.symm.trans hp

/-- Where the synchronizer holds a record at M-emit, it is the record of the last match counted. -/
theorem of_emit {p : Nat} {last : Option Nat} {rec : DecRecord} (h : PushReached u qs t)
    (hp : t.phase = .emit p last rec) :
    ∃ ps, qs = ps ++ [p] ∧ rec = recordAt u.buf p ∧
      u.matchedPositions = qs ++ greedyAt (isFrameAt u.buf) u.app (p + frameSize) ∧
      SameEngine { u.emitted ps with flc := (u.emitted qs).flc, phase := .emit p last rec } t := by
  cases h with
  | scan p' _ h => cases h.phase.symm.trans hp
  | @emit ps _ p' hrest h =>
    obtain ⟨rfl, rfl, rfl⟩ := Phase.emit.inj (h.phase.symm.trans hp)
    exact ⟨ps, rfl, rfl, hrest, h⟩
  | done h => cases h.phase.symm.trans hp

/-- Where the PUSH has ended, it has counted every match, and M-final is done. -/
theorem of_idle (h : PushReached u qs t) (hp : t.phase = .idle) :
    qs = u.matchedPositions ∧ SameEngine ((u.emitted qs).finalize (endOf none qs)) t := by
  cases h with
  | scan p _ h => cases h.phase.symm.trans hp
  | emit p _ h => cases h.phase.symm.trans hp
  | done h => exact ⟨rfl, h⟩

/-! ### The synchronizer's and the consumer's moves -/

theorem mismatch {p : Nat} {last : Option Nat} (h : PushReached u qs t) (hp : t.phase = .scan p last)
    (hw : p + frameSize ≤ t.app) (hm : isFrameAt t.buf p = false) :
    PushReached u qs { t with phase := .scan (p + 1) last } := by
  obtain ⟨rfl, hrest, he⟩ := h.of_scan hp
  have hbuf : t.buf = u.buf := he.buf
  have happ : t.app = u.app := he.app
  rw [hbuf] at hm
  rw [happ] at hw
  exact .scan (p + 1) (hrest.trans (congrArg (qs ++ ·) (greedyAt_mismatch hw hm))) { he with phase := rfl }

theorem countAt {p : Nat} {last : Option Nat} (h : PushReached u qs t) (hp : t.phase = .scan p last)
    (hw : p + frameSize ≤ t.app) (hm : isFrameAt t.buf p = true) : PushReached u (qs ++ [p]) (t.countAt p last) := by
  obtain ⟨rfl, hrest, he⟩ := h.of_scan hp
  have hbuf : t.buf = u.buf := he.buf
  have happ : t.app = u.app := he.app
  rw [hbuf] at hm
  rw [happ] at hw
  rw [greedyAt_match hw hm, List.append_cons] at hrest
  refine .emit p hrest { he with flc := ?_, phase := ?_ }
  · rw [State.countAt_flc, he.flc, hbuf]
    exact (emitted_flc_append u qs p).symm
  · rw [State.countAt_phase, hbuf]

theorem finalize {p : Nat} {last : Option Nat} (h : PushReached u qs t) (hp : t.phase = .scan p last)
    (hw : t.app < p + frameSize) : PushReached u qs (t.finalize last) := by
  obtain ⟨rfl, hrest, he⟩ := h.of_scan hp
  have happ : t.app = u.app := he.app
  rw [happ] at hw
  rw [greedyAt_done hw, List.append_nil] at hrest
  have hfinal := he.finalize (endOf none qs)
  rw [finalize_phase, ← hrest] at hfinal
  exact hrest ▸ .done hfinal

theorem deliver {p : Nat} {last : Option Nat} {rec : DecRecord} (h : PushReached u qs t)
    (hp : t.phase = .emit p last rec) : PushReached u qs (t.deliver p rec) := by
  obtain ⟨ps, rfl, rfl, hrest, he⟩ := h.of_emit hp
  refine .scan (p + frameSize) hrest { he with phase := ?_, recOut := ?_ }
  · rw [State.deliver_phase, endOf_append_singleton]
  · rw [State.deliver_recOut, he.recOut]
    exact (emitted_recOut_append u ps p).symm

/-- A micro-step counts at most one position more, behind those counted. -/
theorem microStep (h : PushReached u qs t) (hstep : microStep t = .next t') :
    ∃ qs', qs.length ≤ qs'.length ∧ PushReached u qs' t' := by
  rcases microStep_cases hstep with ⟨_, rfl⟩ | ⟨p, last, rec, hp, ⟨_, rfl⟩ | ⟨_, rfl⟩⟩ |
    ⟨p, last, hp, _, ⟨hw, hm, rfl⟩ | ⟨hw, hm, rfl⟩ | ⟨hw, rfl⟩⟩
  · exact ⟨qs, Nat.le_refl _, h⟩
  · exact ⟨qs, Nat.le_refl _, h.deliver hp⟩
  · exact ⟨qs, Nat.le_refl _, h⟩
  · exact ⟨qs ++ [p], by simp, h.countAt hp hw hm⟩
  · exact ⟨qs, Nat.le_refl _, h.mismatch hp hw hm⟩
  · exact ⟨qs, Nat.le_refl _, h.finalize hp hw⟩

theorem consumerTake (h : PushReached u qs t) : PushReached u qs t.consumerTake := by
  unfold State.consumerTake
  split
  · next hp => exact h.deliver hp
  · exact h
  · exact h

/-! ### What a reader of the ports sees -/

/-- The counted positions are the first of the matches. -/
theorem isPrefix (h : PushReached u qs t) : qs <+: u.matchedPositions := by
  cases h with
  | scan p hrest _ => exact ⟨_, hrest.symm⟩
  | emit p hrest _ => exact ⟨_, hrest.symm⟩
  | done _ => exact List.prefix_rfl

theorem length_le (h : PushReached u qs t) : qs.length ≤ u.matchedRecords.length := by
  rw [State.matchedRecords, List.length_map]
  exact h.isPrefix.length_le

/-- The records counted are that many of the matched records. -/
theorem take_matchedRecords (h : PushReached u qs t) {ps : List Nat} (hps : ps <+: qs) :
    u.matchedRecords.take ps.length = ps.map (recordAt u.buf) := by
  rw [State.matchedRecords, ← List.map_take, ← List.prefix_iff_eq_take.1 (hps.trans h.isPrefix)]

/-- FLC is the count after the records counted (R98). -/
theorem flc_eq (h : PushReached u qs t) : t.flc = countAfter u.flc u.matchedRecords qs.length := by
  rw [countAfter, h.take_matchedRecords List.prefix_rfl]
  cases h with
  | scan p _ h => exact h.flc
  | emit p _ h => exact h.flc
  | done h => exact h.flc.trans (State.finalize_flc _ _)

/-- The records counted are emitted, but for one that waits at M-emit (R99). -/
theorem recOut_cases (h : PushReached u qs t) :
    t.recOut = u.recOut ++ u.matchedRecords.take qs.length ∨
      ∃ p last rec, t.phase = .emit p last rec ∧ u.matchedRecords[qs.length - 1]? = some rec ∧
        t.recOut = u.recOut ++ u.matchedRecords.take (qs.length - 1) := by
  have htake := fun ps => h.take_matchedRecords (ps := ps)
  cases h with
  | scan p _ h => exact .inl (by rw [htake _ List.prefix_rfl]; exact h.recOut)
  | done h =>
    rw [htake _ List.prefix_rfl]
    exact .inl (h.recOut.trans (State.finalize_recOut _ _))
  | @emit ps _ p hrest h =>
    have hlen : (ps ++ [p]).length - 1 = ps.length := by simp
    refine .inr ⟨_, _, _, h.phase, ?_, ?_⟩
    · rw [hlen, State.matchedRecords, hrest]
      simp
    · rw [hlen, htake _ (List.prefix_append _ _)]
      exact h.recOut

end PushReached

/-- Every value that `t` has on `fl_count` since `u` is FLC after the first records of the PUSH, at most `k` of them, and
a later value is so after no fewer. -/
def ReadPrefixes (u : State) (k : Nat) (t : State) : Prop :=
  ∃ ks : List Nat, ks.Pairwise (· ≤ ·) ∧ (∀ x ∈ ks, x ≤ k) ∧
    t.flCount = u.flCount ++ ks.map (countAfter u.flc u.matchedRecords)

theorem ReadPrefixes.mono {u t : State} {k k' : Nat} (h : ReadPrefixes u k t) (hk : k ≤ k') :
    ReadPrefixes u k' t := by
  obtain ⟨ks, hmono, hle, heq⟩ := h
  exact ⟨ks, hmono, fun x hx => Nat.le_trans (hle x hx) hk, heq⟩

theorem ReadPrefixes.congr {u t t' : State} {k : Nat} (h : ReadPrefixes u k t) (hfl : t'.flCount = t.flCount) :
    ReadPrefixes u k t' := by
  rwa [ReadPrefixes, hfl]

/-- One more value, after the most records yet. -/
theorem ReadPrefixes.read {u t : State} {k : Nat} (h : ReadPrefixes u k t) :
    ReadPrefixes u k (t.withFlCount (countAfter u.flc u.matchedRecords k)) := by
  obtain ⟨ks, hmono, hle, heq⟩ := h
  refine ⟨ks ++ [k], List.pairwise_append.2 ⟨hmono, List.pairwise_singleton _ _, by simpa using hle⟩, ?_, ?_⟩
  · intro x hx
    rcases List.mem_append.1 hx with hx | hx
    · exact hle x hx
    · exact Nat.le_of_eq (List.mem_singleton.1 hx)
  · simp [heq]

theorem consumerTake_flCount (s : State) : s.consumerTake.flCount = s.flCount := by
  unfold State.consumerTake
  split <;> rfl

theorem consumerTake_requests (s : State) : s.consumerTake.requests = s.requests := by
  unfold State.consumerTake
  split <;> rfl

/-- The PUSH that appended its batch in `u` is under way in `t`, and RDCNT has read prefixes of its records. -/
def PushUnderWay (u t : State) : Prop := ∃ qs, PushReached u qs t ∧ ReadPrefixes u qs.length t

namespace PushUnderWay

variable {u t t' : State}

/-- After M-admit the scan stands at CONS, with nothing counted and nothing read (R91). -/
theorem admitBatch (b : List Byte) (s : State) : PushUnderWay (s.afterAppend b) (s.admitBatch b) := by
  refine ⟨[], .scan (s.afterAppend b).cons rfl ?_, [], .nil, by simp, by simp [State.afterAppend]⟩
  rw [State.emitted_nil]
  exact ⟨rfl, rfl, rfl, rfl, rfl, rfl, rfl⟩

/-- A move outside the engine that puts nothing on `fl_count`. -/
theorem outside (h : PushUnderWay u t) (e : SameEngine t t') (hfl : t'.flCount = t.flCount) : PushUnderWay u t' := by
  obtain ⟨qs, hreached, hreads⟩ := h
  exact ⟨qs, hreached.outside e, hreads.congr hfl⟩

theorem microStep (h : PushUnderWay u t) (hm : microStep t = .next t') : PushUnderWay u t' := by
  obtain ⟨qs, hreached, hreads⟩ := h
  obtain ⟨qs', hle, hreached'⟩ := hreached.microStep hm
  obtain ⟨_, _, hfl, _⟩ := microStep_frame hm
  exact ⟨qs', hreached', (hreads.mono hle).congr hfl⟩

theorem consumerTake (h : PushUnderWay u t) : PushUnderWay u t.consumerTake := by
  obtain ⟨qs, hreached, hreads⟩ := h
  exact ⟨qs, hreached.consumerTake, hreads.congr (consumerTake_flCount t)⟩

/-- An ENC or RDCNT performed meanwhile (R86). -/
theorem exec {i : Instr} (h : PushUnderWay u t) (hi : mayInterleave i = true) (he : exec i t = .next t') :
    PushUnderWay u t' := by
  cases i with
  | enc r =>
    cases he
    exact h.outside (.of_outside ..) rfl
  | push b => cases hi
  | rdcnt =>
    cases he
    obtain ⟨qs, hreached, hreads⟩ := h
    refine ⟨qs, hreached.outside (.of_outside ..), ?_⟩
    have hread := hreads.read
    rwa [← hreached.flc_eq] at hread
  | rst => cases hi

end PushUnderWay

/-! ### The agents' turns -/

/-- The decoder reads an ENC or RDCNT back from its spelling (R63). -/
theorem decode_encode_of_mayInterleave {i : Instr} (hi : mayInterleave i = true) (rest : List Byte) :
    decode (encode i ++ rest) = .ok (i, rest) := by
  cases i with
  | enc r =>
    have hlen : (encode (.enc r)).length = 34 := Laws.SpellingLength.enc r
    rw [decode_of_enc (op := 0x01#8) (bs := encode (.enc r) ++ rest) rfl rfl,
      if_neg (by rw [List.length_append]; omega), encOperand_encode, List.drop_left' hlen]
  | push b => cases hi
  | rdcnt => rfl
  | rst => cases hi

/-- The bytes `bs` serve `n` request turns with ENC and RDCNT alone: they spell enough of these before `rest`, or a turn
that comes to `rest` waits (notes/assumptions/9.md). -/
def ServesReads (rest : List Byte) (n : Nat) (bs : List Byte) : Prop :=
  ∃ reads : List Instr, (∀ i ∈ reads, mayInterleave i = true) ∧ bs = reads.flatMap encode ++ rest ∧
    (n ≤ reads.length ∨ decode rest = .error .incomplete)

/-- What a request's turn finds there: nothing whole, or an ENC or RDCNT behind which the other turns are served. -/
theorem ServesReads.next {rest bs : List Byte} {n : Nat} (h : ServesReads rest (n + 1) bs) :
    (decode bs = .error .incomplete ∧ ServesReads rest n bs) ∨
      ∃ i bs', mayInterleave i = true ∧ decode bs = .ok (i, bs') ∧ ServesReads rest n bs' := by
  obtain ⟨reads, hreads, rfl, hn⟩ := h
  cases reads with
  | nil =>
    have hwait : decode rest = .error .incomplete := hn.resolve_left (by simp)
    exact .inl ⟨hwait, [], hreads, rfl, .inr hwait⟩
  | cons i reads =>
    obtain ⟨hi, hreads⟩ := List.forall_mem_cons.1 hreads
    refine .inr ⟨i, reads.flatMap encode ++ rest, hi, ?_, reads, hreads, rfl, hn.imp_left Nat.le_of_succ_le_succ⟩
    rw [List.flatMap_cons, List.append_assoc, decode_encode_of_mayInterleave hi]

theorem serve_of_incomplete {s : State} (h : decode s.requests = .error .incomplete) : serve s = .next s := by
  simp [serve, h]

theorem exec_requests_of_mayInterleave {i : Instr} {s t : State} (hi : mayInterleave i = true)
    (h : exec i s = .next t) : t.requests = s.requests := by
  cases i with
  | enc r =>
    cases h
    rfl
  | push b => cases hi
  | rdcnt =>
    cases h
    rfl
  | rst => cases hi

namespace PushUnderWay

variable {u t t' : State} {rest : List Byte}

theorem serve {n : Nat} (h : PushUnderWay u t) (hr : ServesReads rest (n + 1) t.requests) (hs : serve t = .next t') :
    PushUnderWay u t' ∧ ServesReads rest n t'.requests := by
  rcases hr.next with ⟨hwait, hr⟩ | ⟨i, bs, hi, hd, hr⟩
  · rw [serve_of_incomplete hwait] at hs
    cases hs
    exact ⟨h, hr⟩
  · rw [serve_of_decode hd] at hs
    have hout : PushUnderWay u { t with requests := bs } := h.outside (.of_outside ..) rfl
    exact ⟨hout.exec hi hs, by rwa [exec_requests_of_mayInterleave hi hs]⟩

theorem takeTurn {x : Turn} {ts : List Turn} (h : PushUnderWay u t)
    (hr : ServesReads rest ((x :: ts).count .request) t.requests) (hx : takeTurn x t = .next t') :
    PushUnderWay u t' ∧ ServesReads rest (ts.count .request) t'.requests := by
  cases x with
  | sync =>
    obtain ⟨_, _, _, hreq, _⟩ := microStep_frame hx
    exact ⟨h.microStep hx, by rwa [hreq]⟩
  | take =>
    cases hx
    exact ⟨h.consumerTake, by rwa [consumerTake_requests]⟩
  | ready b =>
    cases hx
    exact ⟨h.outside (.of_outside ..) rfl, hr⟩
  | request =>
    rw [List.count_cons_self] at hr
    exact h.serve hr hx

/-- Whatever turns are taken, the PUSH stays under way: no request in them but ENC and RDCNT (R86). -/
theorem takeTurns {ts : List Turn} (h : PushUnderWay u t) (hr : ServesReads rest (ts.count .request) t.requests)
    (hts : takeTurns ts t = .next t') : PushUnderWay u t' := by
  induction ts generalizing t with
  | nil =>
    cases hts
    exact h
  | cons x ts ih =>
    rw [Machine.takeTurns] at hts
    split at hts
    · next v hv =>
      obtain ⟨hv', hr'⟩ := h.takeTurn hr hv
      exact ih hv' hr' hts
    · cases hts
    · cases hts

end PushUnderWay

/-! ### The statement -/

theorem afterAppend_flc (s : State) (b : List Byte) : (s.afterAppend b).flc = s.flc := State.admitBatch_flc s b

theorem afterAppend_recOut (s : State) (b : List Byte) : (s.afterAppend b).recOut = s.recOut :=
  State.admitBatch_recOut s b

theorem afterAppend_flCount (s : State) (b : List Byte) : (s.afterAppend b).flCount = s.flCount :=
  State.admitBatch_flCount s b

/-- Where the PUSH has ended, every record is emitted, and the buffer and the cursors are those of the transaction
(R99, R104). -/
theorem PushReached.ended {b : List Byte} {s t : State} {qs : List Nat} (h : PushReached (s.afterAppend b) qs t)
    (hp : t.phase = .idle) :
    qs.length = (s.afterAppend b).matchedRecords.length ∧ t.recOut = s.recOut ++ (s.afterAppend b).matchedRecords ∧
      t.buf = (pushTransaction b s).buf ∧ t.cons = (pushTransaction b s).cons ∧
      t.app = (pushTransaction b s).app := by
  obtain ⟨rfl, he⟩ := h.of_idle hp
  have hrec := he.recOut.trans (State.finalize_recOut _ _)
  rw [endOf_none] at he
  refine ⟨(List.length_map _).symm, ?_, he.buf, he.cons, he.app⟩
  rw [hrec, ← afterAppend_recOut s b]
  rfl

/-- Settles O45: the positions counted are the first of the matches, every turn keeps their number or raises it, and FLC
and `rec_out` are what they say. -/
theorem concurrentReadSeesAPrefix : Obligations.ConcurrentReadSeesAPrefix := by
  intro b rest s t ts reads _ _ hreads hreq hcount hts
  have hserves : ServesReads rest (ts.count .request) (s.admitBatch b).requests :=
    ⟨reads, hreads, (State.admitBatch_requests s b).trans hreq, hcount⟩
  obtain ⟨qs, hreached, ks, hmono, hle, hfl⟩ := (PushUnderWay.admitBatch b s).takeTurns hserves hts
  have hflc := hreached.flc_eq
  have hrec := hreached.recOut_cases
  rw [afterAppend_flCount, afterAppend_flc] at hfl
  rw [afterAppend_flc] at hflc
  rw [afterAppend_recOut] at hrec
  exact ⟨qs.length, ks, hreached.length_le, hmono, hle, hfl, by rw [exec_rdcnt, hflc], hrec, hreached.ended⟩

end Sys2Proof.Machine
end

section
/-! PROOFS, family 30_encoding.md. The serialized form (30_encoding.md R63 to R67): the cases of the decoder said once,
by the bytes it read, and what the step makes of bytes that decode or do not. -/

namespace Sys2Proof.Machine

/-! ### Decode and encode -/

/-- Settles O1: the length field of a PUSH that has a spelling is its batch's length, behind which the rest stands; an
ENC's operand bytes assemble to its record. -/
theorem decodeOfEncode : Obligations.DecodeOfEncode := by
  intro i rest hwf
  cases i with
  | enc r => exact decode_encode_of_mayInterleave rfl rest
  | push b =>
    have hlen : pushLength (encode (.push b) ++ rest) = b.length := pushLength_encode b rest (of_decide_eq_true hwf)
    have htotal : (encode (.push b)).length = 3 + b.length := Laws.SpellingLength.push b
    rw [decode_of_push (bs := encode (.push b) ++ rest) rfl rfl, hlen,
      if_neg (by rw [List.length_append]; omega), List.drop_left' htotal]
    exact congrArg (fun l => Except.ok (Instr.push l, rest)) List.take_left
  | rdcnt => exact decode_encode_of_mayInterleave rfl rest
  | rst => rfl

/-- The bytes, the operation read from them and the rest behind it, case by case of the opcode (R63). -/
inductive Decoded : List Byte → Instr → List Byte → Prop where
  | enc {tl : List Byte} (hlen : 33 ≤ tl.length) :
      Decoded (0x01#8 :: tl) (.enc (encOperand (0x01#8 :: tl))) (tl.drop 33)
  | push {lo hi : Byte} {b rest : List Byte} (hlen : b.length = (fromBytes lo hi).toNat) :
      Decoded (0x02#8 :: lo :: hi :: (b ++ rest)) (.push b) rest
  | rdcnt (rest : List Byte) : Decoded (0x03#8 :: rest) .rdcnt rest
  | rst (rest : List Byte) : Decoded (0x04#8 :: rest) .rst rest

/-- The PUSH case: the bytes behind the length field are the batch, as long as the field says, and the rest. -/
theorem decoded_push {tl : List Byte} (hfield : 3 ≤ (0x02#8 :: tl).length)
    (hlen : 3 + pushLength (0x02#8 :: tl) ≤ (0x02#8 :: tl).length) :
    Decoded (0x02#8 :: tl) (.push (((0x02#8 :: tl).drop 3).take (pushLength (0x02#8 :: tl))))
      ((0x02#8 :: tl).drop (3 + pushLength (0x02#8 :: tl))) := by
  match tl, hfield, hlen with
  | lo :: hi :: body, _, hlen =>
    have hn : pushLength (0x02#8 :: lo :: hi :: body) = (fromBytes lo hi).toNat := rfl
    rw [hn] at hlen ⊢
    have hbody : (fromBytes lo hi).toNat ≤ body.length := by
      simp only [List.length_cons] at hlen
      omega
    have hpush := Decoded.push (rest := body.drop (fromBytes lo hi).toNat) (List.length_take_of_le hbody)
    rw [List.take_append_drop] at hpush
    rwa [← List.drop_drop]

/-- What the decoder did where it answers an operation. -/
theorem decoded_of_decode {bs rest : List Byte} {i : Instr} (h : decode bs = .ok (i, rest)) : Decoded bs i rest := by
  cases bs with
  | nil => cases h
  | cons op tl =>
    by_cases h1 : op = 0x01#8
    · subst h1
      rw [decode_of_enc rfl rfl] at h
      split at h
      · cases h
      · next hlen =>
        cases h
        exact .enc (Nat.le_of_succ_le_succ (Nat.not_lt.1 hlen))
    · by_cases h2 : op = 0x02#8
      · subst h2
        rw [decode_of_push rfl rfl] at h
        split at h
        · cases h
        · next hlen =>
          cases h
          obtain ⟨hfield, hbatch⟩ := not_or.1 hlen
          exact decoded_push (Nat.not_lt.1 hfield) (Nat.not_lt.1 hbatch)
      · rw [decode, if_neg h1, if_neg h2] at h
        split at h
        · next h3 =>
          cases h
          exact h3 ▸ .rdcnt tl
        · split at h
          · next h4 =>
            cases h
            exact h4 ▸ .rst tl
          · cases h

/-- The 33 bytes before an ENC's flags byte are those that its operand is spelled with (R66). -/
theorem take_encode_encOperand {tl : List Byte} (h : 33 ≤ tl.length) :
    (encode (.enc (encOperand (0x01#8 :: tl)))).take 33 = (0x01#8 :: tl).take 33 := by
  have hlen : (channelBytes (encOperand (0x01#8 :: tl)).ch.toList).length = 32 := by simp
  rw [encode_enc, List.take_succ_cons, List.take_succ_cons, List.take_left' hlen]
  refine congrArg (List.cons 0x01#8) (List.ext_getElem (by rw [hlen, List.length_take]; omega) fun k hk hk' => ?_)
  have hbyte := channelBytes_encOperand (0x01#8 :: tl) k (by omega)
  rw [List.getD_eq_getElem _ _ hk, byteAt, List.getD_eq_getElem _ _ (by rw [List.length_cons]; omega)] at hbyte
  simpa using hbyte

/-- Bits 3..0 of the flags byte spelled are those of the flags byte read; bits 7..4 are dropped (R65). -/
theorem encFlagsByte_encOperand (bs : List Byte) :
    (encFlagsByte (encOperand bs)).setWidth 4 = (byteAt bs 33).setWidth 4 := by
  obtain ⟨h0, h1, h2, h3⟩ := encFlagsByte_bits (encOperand bs)
  refine BitVec.eq_of_getLsbD_eq fun j hj => ?_
  rw [BitVec.getLsbD_setWidth, BitVec.getLsbD_setWidth]
  match j, hj with
  | 0, _ => rw [h0]; rfl
  | 1, _ => rw [h1]; rfl
  | 2, _ => rw [h2]; rfl
  | 3, _ => rw [h3]; rfl

/-- A batch behind its length field is spelled so, and its length fits the field (R66). -/
theorem encode_push_of_length {lo hi : Byte} {b : List Byte} (h : b.length = (fromBytes lo hi).toNat) :
    (Instr.push b).wf = true ∧ encode (.push b) = 0x02#8 :: lo :: hi :: b := by
  refine ⟨decide_eq_true (h ▸ (fromBytes lo hi).isLt), ?_⟩
  rw [encode, h, BitVec.ofNat_toNat, BitVec.setWidth_eq, low_fromBytes, high_fromBytes]

/-- Settles O2: each case of the decoder spelled again. -/
theorem decodedBytesAreTheSpelling : Obligations.DecodedBytesAreTheSpelling := by
  intro bs rest i h
  cases decoded_of_decode h with
  | @enc tl hlen =>
    exact ⟨rfl, Nat.succ_le_succ hlen, rfl, (take_encode_encOperand hlen).symm, (encFlagsByte_encOperand _).symm⟩
  | push hlen =>
    obtain ⟨hwf, hspelled⟩ := encode_push_of_length hlen
    refine ⟨hwf, ?_⟩
    change _ = encode (.push _) ++ rest
    rw [hspelled]
    rfl
  | rdcnt => exact ⟨rfl, rfl⟩
  | rst => exact ⟨rfl, rfl⟩

/-! ### Every payload is encoded -/

/-- The ENC record with a decoded record's channels and flags (R13). -/
def DecRecord.toEnc (d : DecRecord) : EncRecord where
  ch := Vector.ofFn fun i : Fin 16 => (d.ch.get i).setWidth 16
  digital1 := d.digital1
  digital2 := d.digital2
  frameLost := d.frameLost
  failSafe := d.failSafe

/-- A decoded channel passes the mask unchanged (R76). -/
theorem maskedChannels_toEnc (d : DecRecord) : maskedChannels d.toEnc = d.ch := by
  apply Vector.ext
  intro i hi
  refine BitVec.eq_of_getLsbD_eq fun j hj => ?_
  have hbit := getLsbD_maskedChannels d.toEnc ⟨i, hi⟩ hj
  rw [Vector.get_eq_getElem] at hbit
  rw [hbit]
  simp [DecRecord.toEnc, Vector.get_eq_getElem, show j < 16 by omega]

/-- A byte of a frame's payload field is that byte of the frame (R55). -/
theorem payloadByte_payloadOf (F : Frame) {k : Nat} (hk : k < 22) : payloadByte (payloadOf F) k = F[1 + k] := by
  refine BitVec.eq_of_getLsbD_eq fun j hj => ?_
  rw [getLsbD_payloadByte _ _ _ hj, getLsbD_payloadOf F ⟨k, hk⟩ j hj, Vector.get_eq_getElem]

/-- Encoding what was decoded from a frame gives the frame's payload back (R82). -/
theorem encodeFrame_toEnc_decodeFrame (F : Frame) {k : Nat} (hk : k < 22) :
    (encodeFrame (decodeFrame F).toEnc)[1 + k] = F[1 + k] := by
  have hch : (decodeFrame F).ch = unpackChannels (payloadOf F) := rfl
  rw [getElem_encodeFrame_payload _ k hk, maskedChannels_toEnc, hch, pack_unpack, payloadByte_payloadOf F hk]

/-- A frame with the given payload bytes, and 0x00 in its other bytes, which the payload field does not hold. -/
def frameWithPayload (P : Vector Byte 22) : Frame := Vector.ofFn fun k => P.toList.getD (k.val - 1) 0#8

theorem getElem_frameWithPayload (P : Vector Byte 22) {k : Nat} (hk : k < 22) : (frameWithPayload P)[1 + k] = P[k] := by
  simp [frameWithPayload, hk]

/-- Settles O12: the record decoded from a frame with that payload. -/
theorem everyPayloadIsEncoded : Obligations.EveryPayloadIsEncoded := fun P =>
  ⟨(decodeFrame (frameWithPayload P)).toEnc, fun k =>
    (encodeFrame_toEnc_decodeFrame _ k.isLt).trans (getElem_frameWithPayload P k.isLt)⟩

/-! ### The step and the bytes presented -/

/-- A reserved opcode is none of the four (R65). -/
theorem ne_of_reserved {op : Byte} (h : op = 0x00#8 ∨ 0x05#8 ≤ op) :
    op ≠ 0x01#8 ∧ op ≠ 0x02#8 ∧ op ≠ 0x03#8 ∧ op ≠ 0x04#8 := by
  bv_omega

theorem decode_of_reserved {op : Byte} (h : op = 0x00#8 ∨ 0x05#8 ≤ op) (rest : List Byte) :
    decode (op :: rest) = .error .reservedOpcode := by
  obtain ⟨h1, h2, h3, h4⟩ := ne_of_reserved h
  rw [decode, if_neg h1, if_neg h2, if_neg h3, if_neg h4]

theorem serve_of_reserved {s : State} (h : decode s.requests = .error .reservedOpcode) :
    serve s = .refused .reservedOpcode := by
  simp [serve, h]

/-- Where it is the next request's turn, the step is `serve` (notes/assumptions/3.md). -/
theorem step_of_request_turn {s : State} (h : (s.turns = [] ∧ s.phase = .idle) ∨ s.turns.head? = some .request) :
    step s = serve { s with turns := s.turns.tail } := by
  rcases h with ⟨ht, hp⟩ | hr
  · rw [step_of_turns_nil ht, defaultMove, if_pos hp, ht, List.tail_nil, ← ht]
  · obtain ⟨ts, ht⟩ := List.head?_eq_some_iff.1 hr
    rw [step_of_turns_cons ht, ht]
    rfl

/-- Settles O3: the decoder's four tests all fail on a reserved opcode, and `serve` refuses what it then answers. -/
theorem reservedOpcodeIsRefused : Obligations.ReservedOpcodeIsRefused := by
  intro op rest hop
  have hd := decode_of_reserved hop rest
  refine ⟨hd, fun s hreq hturn => ?_⟩
  rw [step_of_request_turn hturn]
  exact serve_of_reserved (s := { s with turns := s.turns.tail }) (hreq ▸ hd)

/-- Settles O4: the decoder evaluated on the five words. -/
theorem sampleWordsDecode : Obligations.SampleWordsDecode :=
  ⟨⟨encOperand ([0x01, 0x34, 0x12] ++ List.replicate 28 0x00#8 ++ [0xEF, 0xBE, 0x09]), rfl, by decide⟩,
    rfl, rfl, rfl, rfl⟩

/-! ### Rows of the opcode table -/

/-- A byte of a row's operation is that byte of the row. -/
theorem tableByte_of_getElem? {nbits w k : Nat} {x : Byte} (h : (tableBytes nbits w)[k]? = some x) :
    tableByte nbits w k = x := by
  rw [tableBytes, List.getElem?_map] at h
  obtain ⟨j, hj, rfl⟩ := Option.map_eq_some_iff.1 h
  obtain ⟨_, rfl⟩ := List.getElem?_eq_some_iff.1 hj
  rw [List.getElem_range]

/-- A row's bytes are one operation's, with nothing behind it (R63). -/
theorem rest_eq_nil_of_decode_tableBytes {nbits w : Nat} {i : Instr} {rest : List Byte}
    (h : decode (tableBytes nbits w) = .ok (i, rest)) : rest = [] := by
  have hdecoded := decoded_of_decode h
  generalize hbs : tableBytes nbits w = bs at hdecoded
  have hbyte : ∀ k x, bs[k]? = some x → tableByte nbits w k = x := fun k x hk =>
    tableByte_of_getElem? (hbs ▸ hk)
  have hlen := congrArg List.length hbs
  rw [tableBytes, List.length_map, List.length_range] at hlen
  cases hdecoded with
  | enc =>
    rw [hbyte 0 _ rfl, if_pos rfl, List.length_cons] at hlen
    exact List.drop_eq_nil_of_le (by omega)
  | push hb =>
    rw [hbyte 0 _ rfl, hbyte 1 _ rfl, hbyte 2 _ rfl, if_neg (by decide), if_pos rfl, ← hb] at hlen
    simp only [List.length_cons, List.length_append] at hlen
    exact List.eq_nil_of_length_eq_zero (by omega)
  | rdcnt =>
    rw [hbyte 0 _ rfl] at hlen
    exact List.eq_nil_of_length_eq_zero (Nat.succ.inj hlen.symm)
  | rst =>
    rw [hbyte 0 _ rfl] at hlen
    exact List.eq_nil_of_length_eq_zero (Nat.succ.inj hlen.symm)

theorem decode_of_decodeTableWord {nbits w : Nat} {i : Instr} (h : decodeTableWord nbits w = some i) :
    decode (tableBytes nbits w) = .ok (i, []) := by
  unfold decodeTableWord at h
  split at h
  · next rest hd =>
    cases h
    rw [hd, rest_eq_nil_of_decode_tableBytes hd]
  · cases h

/-- Settles O5: the row's bytes before the others decode to its operation with the others as the rest (R64), and the
request's turn runs it. -/
theorem tableWordRunsNext : Obligations.TableWordRunsNext := by
  intro s nbits w i h
  have hd := decode_append s.requests (decode_of_decodeTableWord h)
  exact stepRunsTheDecodedOperation (s.withFetchWord nbits w) i s.requests hd (.inr rfl)

/-! ### The match test -/

/-- END_SET, marker by marker (R58). -/
theorem isFrameEnds_iff (first final : Byte) :
    isFrameEnds first final = true ↔ first = 0x0F#8 ∧ (final = 0x00#8 ∨ final = 0x04#8 ∨ final = 0x14#8 ∨
      final = 0x24#8 ∨ final = 0x34#8) := by
  simp [isFrameEnds, header, endSet]

/-- ENC's frames have the header and the canonical end marker (R82). -/
theorem validFrame_encodeFrame (r : EncRecord) : ValidFrame (encodeFrame r) := by
  rw [ValidFrame, isFrameEnds_iff]
  exact ⟨getElem_encodeFrame r 0 (by decide), .inl (getElem_encodeFrame r 24 (by decide))⟩

/-- Settles O13: the match test is that of the window's first and last byte. -/
theorem matchTestIsHeaderAndEndMarker : Obligations.MatchTestIsHeaderAndEndMarker :=
  ⟨fun m p => isFrameEnds_iff (m.read p) (m.read (p + 24)), validFrame_encodeFrame⟩

end Sys2Proof.Machine
end

section
/-! PROOFS, family 40_encoder.md. The frame ENC makes (40_encoder.md R81): its fixed bytes, what decoding it gives back
(R82 (b)), when two records have one frame (R82 (c)), and how ENC completes (R83). -/

namespace Sys2Proof.Machine

/-! ### The channel mask -/

@[simp] theorem get_maskedChannels (r : EncRecord) (i : Fin 16) :
    (maskedChannels r).get i = maskChannel (r.ch.get i) := by
  simp [maskedChannels, Vector.get_eq_getElem]

/-- Masking keeps a channel input modulo `2^11` (R76). -/
theorem toNat_maskChannel (c : ChannelIn) : (maskChannel c).toNat = c.toNat % 2048 := BitVec.toNat_setWidth 11 c

/-- The mask as R76 writes it, `c & 0x7FF`, is the same remainder. -/
theorem toNat_and_mask (c : ChannelIn) : (c &&& 0x07FF#16).toNat = c.toNat % 2048 := by
  rw [BitVec.toNat_and]
  exact Nat.and_two_pow_sub_one_eq_mod c.toNat 11

theorem maskChannel_eq_iff (c d : ChannelIn) : maskChannel c = maskChannel d ↔ c &&& 0x07FF#16 = d &&& 0x07FF#16 := by
  rw [← BitVec.toNat_inj, ← BitVec.toNat_inj, toNat_maskChannel, toNat_maskChannel, toNat_and_mask, toNat_and_mask]

theorem maskedChannels_eq_iff (r q : EncRecord) :
    maskedChannels r = maskedChannels q ↔ ∀ i : Fin 16, r.ch.get i &&& 0x07FF#16 = q.ch.get i &&& 0x07FF#16 := by
  simp only [← maskChannel_eq_iff, ← get_maskedChannels]
  exact ⟨fun h i => h ▸ rfl, fun h => Vector.ext fun i hi => h ⟨i, hi⟩⟩

/-! ### The frame and what decoding it gives -/

/-- The flags byte of an ENC frame, whatever the record's flags (R79). -/
theorem get_encodeFrame_flags (r : EncRecord) : (encodeFrame r).get 23 = flagsTx := getElem_encodeFrame r 23 (by decide)

/-- Settles O6: the bytes of an ENC frame outside the payload. -/
theorem encodedFrameFixedBytes : Obligations.EncodedFrameFixedBytes := fun r =>
  ⟨getElem_encodeFrame r 0 (by decide), get_encodeFrame_flags r, getElem_encodeFrame r 24 (by decide)⟩

/-- Decoding an ENC frame gives the masked channels back, and no flag (R82 (b)). -/
theorem decodeFrame_encodeFrame (r : EncRecord) :
    decodeFrame (encodeFrame r) = ⟨maskedChannels r, false, false, false, false⟩ := by
  rw [decodeFrame, payloadOf_encodeFrame, unpack_pack, get_encodeFrame_flags]
  rfl

/-- Settles O10: the decoded channels are the masked ones, and masking is the remainder modulo `2^11`. -/
theorem decodeOfEncodedFrame : Obligations.DecodeOfEncodedFrame := by
  intro r
  rw [decodeFrame_encodeFrame]
  refine ⟨fun i => ?_, rfl, rfl, rfl, rfl⟩
  rw [get_maskedChannels, toNat_maskChannel]

/-- A frame holds the masked channels and nothing else of its record (R73, R82 (c)). -/
theorem encodeFrame_eq_iff (r q : EncRecord) : encodeFrame r = encodeFrame q ↔ maskedChannels r = maskedChannels q := by
  constructor
  · intro h
    have hdecoded := congrArg (fun F => (decodeFrame F).ch) h
    simpa only [decodeFrame_encodeFrame] using hdecoded
  · intro h
    rw [encodeFrame, encodeFrame, h]

/-- Settles O11: equal frames decode to equal masked channels, and the frame is made of those alone. -/
theorem frameIsMaskedChannels : Obligations.FrameIsMaskedChannels := fun r q =>
  (encodeFrame_eq_iff r q).trans (maskedChannels_eq_iff r q)

/-! ### ENC -/

/-- Settles O14: ENC appends its frame to `enc_out` and is complete (R83). -/
theorem encCompletes : Obligations.EncCompletes := exec_enc

end Sys2Proof.Machine
end

section
/-! PROOFS, family 41_synchronizer.md. Every operation keeps the block's invariant, and at an operation boundary the
invariant leaves an empty batch nothing to do (41_synchronizer.md R108). -/

namespace Sys2Proof.Machine

/-- Every operation keeps the invariant. -/
theorem BlockInv.exec {i : Instr} {s t : State} (h : BlockInv s) (he : exec i s = .next t) : BlockInv t := by
  by_cases hi : i = .rst
  · subst hi
    obtain ⟨hp, rfl⟩ := execRst_next he
    exact h.recreate hp
  · exact (exec_moves hi he).keeps (fun _ _ => EngineMove.blockInv) h

/-- At an operation boundary a scan from CONS matches nothing (R108 (b)). -/
theorem BlockInv.matchedPositions_idle {s : State} (h : BlockInv s) (hp : s.phase = .idle) :
    s.matchedPositions = [] := by
  refine List.eq_nil_iff_forall_not_mem.2 fun q hq => ?_
  obtain ⟨hcons, hstop, hmatch⟩ := greedyAt_bound hq
  exact absurd hmatch (by rw [(h.idle hp).1 q hcons (by omega)]; decide)

/-- Compaction changes nothing where `CONS = 0` (R101). -/
theorem compact_of_cons_zero {s : State} (hw : s.buf.wf = true) (h : s.cons = 0) : s.compact = s := by
  by_cases hfull : s.cap - s.app < frameSize
  · rw [compact_of_full hfull, h, Memory.moveDown_zero hw]
    exact congrArg (fun c => { s with cons := c }) h.symm
  · exact compact_of_room (Nat.not_lt.1 hfull)

/-- At an operation boundary compaction and the full-consumption reset change nothing (R108 (c), (d)). -/
theorem BlockInv.compact_reset_idle {s : State} (h : BlockInv s) (hp : s.phase = .idle) :
    s.compact.resetIfConsumed = s := by
  obtain ⟨_, hroom, hequal⟩ := h.idle hp
  have hcompact : s.compact = s := hroom.elim (compact_of_cons_zero h.bufWf) compact_of_room
  rw [hcompact]
  by_cases he : s.cons = s.app
  · have hcons := hequal he
    rw [resetIfConsumed_of_eq he]
    exact congrArg₂ (fun c a => { s with cons := c, app := a }) hcons.symm (he ▸ hcons.symm)
  · exact resetIfConsumed_of_ne he

/-- Where the guard does not fire, guard and append are the append (R89, R90). -/
theorem afterAppend_of_room {s : State} {b : List Byte} (h : s.app + b.length ≤ s.cap) :
    s.afterAppend b = s.append b := by
  rw [State.afterAppend, overflowGuard_of_le h]

/-- Guard and append of an empty batch change nothing where APP does not exceed CAP (R89, R90). -/
theorem afterAppend_nil {s : State} (h : s.app ≤ s.cap) : s.afterAppend [] = s := afterAppend_of_room (b := []) h

/-- The whole PUSH procedure with an empty batch changes nothing (R108). -/
theorem BlockInv.pushTransaction_nil {s : State} (h : BlockInv s) (hp : s.phase = .idle) :
    pushTransaction [] s = s := by
  have hpush : pushTransaction [] s = (s.emitted []).compact.resetIfConsumed := by
    rw [pushTransaction, afterAppend_nil h.appLeCap, State.matchedRecords, h.matchedPositions_idle hp]
    rfl
  rw [hpush, State.emitted_nil, h.compact_reset_idle hp]

/-- Settles O51: every operation keeps the invariant, which at an operation boundary says (a) to (d), and so that the
empty batch finds no match, no byte to move and no cursor to reset. -/
theorem operationBoundaryInvariants : Obligations.OperationBoundaryInvariants := by
  refine ⟨fun s h hp => h.pushTransaction_nil hp, fun i s t h he hp => ?_⟩
  have ht := h.exec he
  obtain ⟨hno, hroom, hequal⟩ := ht.idle hp
  refine ⟨⟨ht.consLeApp, ht.appLeCap⟩, ?_, hroom, fun hc => ⟨hequal hc, hc ▸ hequal hc⟩⟩
  rintro q h1 h2 ⟨hhead, hend⟩
  have hmatch : isFrameAt t.buf q = true := by
    rw [isFrameAt, isFrameEnds, hhead, Bool.and_eq_true]
    exact ⟨rfl, List.contains_iff_mem.2 hend⟩
  exact absurd hmatch (by rw [hno q h1 (Nat.lt_sub_of_add_lt (Nat.lt_succ_of_le h2))]; decide)

end Sys2Proof.Machine
end

section
/-! PROOFS, family 41_synchronizer.md. Admission of a batch (41_synchronizer.md R87 to R89), the micro-steps of a PUSH
(R86), and what M-final does to the cursors and the buffer (R100 to R102). -/

namespace Sys2Proof.Machine

/-! ### Admission -/

theorem execPush_busy {b : List Byte} {s : State} (h : s.phase ≠ .idle) : execPush b s = .refused .overlappingPush :=
  if_pos h

theorem execPush_tooLong {b : List Byte} {s : State} (hp : s.phase = .idle) (hb : s.cap < b.length) :
    execPush b s = .refused .batchTooLong := by
  simp [execPush, hp, State.tooLong, hb]

theorem execPush_nil {s : State} (hp : s.phase = .idle) : execPush [] s = .next s := by
  simp [execPush, hp, State.tooLong]

/-- An admitted batch: M-admit, and the micro-steps that follow (R104). -/
theorem execPush_admitted {b : List Byte} {s : State} (hp : s.phase = .idle) (h1 : 1 ≤ b.length)
    (hb : b.length ≤ s.cap) : execPush b s = continuePush (s.admitBatch b) := by
  have hne : b ≠ [] := List.ne_nil_of_length_pos h1
  simp [execPush, hp, State.tooLong, Nat.not_lt.2 hb, hne]

theorem continuePush_of_turns {s : State} (h : s.turns ≠ []) : continuePush s = .next s := if_neg h

theorem continuePush_of_no_turns {s : State} (h : s.turns = []) : continuePush s = syncRun s := if_pos h

/-- An admitted batch goes on to a next state (R88). -/
theorem continuePush_admitBatch_next {b : List Byte} {s : State} (hb : b.length ≤ s.cap) :
    ∃ t, continuePush (s.admitBatch b) = .next t := by
  by_cases ht : (s.admitBatch b).turns = []
  · rw [continuePush_of_no_turns ht]
    exact runSync_next _ (admitBatch_app_le hb)
  · exact ⟨_, continuePush_of_turns ht⟩

/-- Settles O20: the first test of PUSH is that none is in progress. -/
theorem pushRefusedDuringPush : Obligations.PushRefusedDuringPush := fun _ _ hp => execPush_busy hp

/-- Settles O21: the three ranges of the length are three branches of PUSH, and an admitted one never faults. -/
theorem pushAdmissionByLength : Obligations.PushAdmissionByLength := by
  refine fun b s hp => ⟨execPush_tooLong hp, fun h0 => ?_, fun h1 hb => ?_⟩
  · rw [List.length_eq_zero_iff.1 h0]
    exact execPush_nil hp
  · rw [exec_push, execPush_admitted hp h1 hb]
    exact continuePush_admitBatch_next hb

/-- Settles O22: the guard clears the buffer, or leaves the state. -/
theorem overflowGuard : Obligations.OverflowGuard := by
  refine fun s n => ⟨fun hfire => ?_, overflowGuard_of_le⟩
  rw [overflowGuard_of_gt hfire]
  exact ⟨Memory.read_cleared, rfl⟩

/-- A batch that fires the guard is admitted as from the cleared buffer (R89). -/
theorem admitBatch_clearBuffer {b : List Byte} {s : State} (hb : b.length ≤ s.cap) (hfire : s.app + b.length > s.cap) :
    s.admitBatch b = s.clearBuffer.admitBatch b := by
  have hroom : s.clearBuffer.app + b.length ≤ s.clearBuffer.cap := by simpa using hb
  rw [State.admitBatch, State.admitBatch, overflowGuard_of_gt hfire, overflowGuard_of_le hroom]

/-- Settles O23: PUSH depends on the admitted state alone, and M-admit is the same from the cleared buffer. -/
theorem overflowRestartsTheStream : Obligations.OverflowRestartsTheStream := by
  intro b s hp h1 hb hfire
  have hcleared : execPush b s.clearBuffer = continuePush (s.clearBuffer.admitBatch b) := execPush_admitted hp h1 hb
  rw [exec_push, execPush_admitted hp h1 hb, admitBatch_clearBuffer hb hfire, ← hcleared]
  rfl

/-- Settles O25: with turns listed, PUSH stops behind M-admit. -/
theorem pushStartsUnderListedTurns : Obligations.PushStartsUnderListedTurns := by
  intro b s hp ht h1 hb
  rw [exec_push, execPush_admitted hp h1 hb, continuePush_of_turns (by rwa [State.admitBatch_turns])]
  rfl

/-- Settles O39: behind a moved CONS a frame fits behind APP (R108 (c)), so that no such batch fires the guard. -/
theorem guardFiresOnlyOnRetainedBytes : Obligations.GuardFiresOnlyOnRetainedBytes := by
  intro s n h hp hn hfire
  obtain ⟨_, hroom, _⟩ := h.idle hp
  have hcap := h.capHoldsFrame
  simp only [frameSize] at hroom hcap
  omega

/-! ### The micro-steps -/

/-- Settles O26: a mismatch is one byte on (R95). -/
theorem mismatchMovesOneByte : Obligations.MismatchMovesOneByte := by
  intro s p last hp hcap hw hm
  rw [microStep_scan hp hcap, scanStep_mismatch last hw hm]

/-- `frameLost` of the record at `p` is bit 2 of `F23` there (R97). -/
theorem frameLost_recordAt (m : Memory) (p : Nat) : (recordAt m p).frameLost = (m.read (p + 23)).getLsbD 2 :=
  congrArg (·.getLsbD 2) (Memory.get_window m p 23)

/-- Settles O27: a match is M-count, which counts by bit 2 of `F23` (R98). -/
theorem matchCountsBeforeEmission : Obligations.MatchCountsBeforeEmission := by
  intro s p last hp hcap hw hm
  rw [microStep_scan hp hcap, scanStep_match last hw hm, State.countAt, countFrame, frameLost_recordAt]
  rfl

/-- Settles O28: M-emit with a ready consumer delivers (R99). -/
theorem readyConsumerGetsTheRecord : Obligations.ReadyConsumerGetsTheRecord := fun _ _ _ _ hp hr =>
  microStep_emit_ready hp hr

/-- M-final writes the buffer, the cursors and the phase alone. -/
theorem finalize_writes (s : State) (last : Option Nat) :
    ∃ buf cons app, s.finalize last = { s with buf := buf, cons := cons, app := app, phase := .idle } := by
  rcases finalize_cases s last with ⟨_, e⟩ | ⟨_, _, e⟩ | ⟨_, _, e⟩ <;> exact ⟨_, _, _, e⟩

/-- Settles O57: behind the last candidate a micro-step is M-final. -/
theorem lastMicroStepFinalizes : Obligations.LastMicroStepFinalizes := by
  intro s p last hp hcap hw
  have hfinal : microStep s = .next (s.finalize last) := by
    rw [microStep_scan hp hcap, scanStep_done last hw]
  obtain ⟨buf, cons, app, hwrites⟩ := finalize_writes s last
  exact ⟨hfinal, hfinal, buf, cons, app, by rw [hfinal, hwrites]⟩

/-! ### Cursors and compaction -/

/-- Compaction and the full-consumption reset give the same cursors in either order (R102). -/
theorem cursors_compact_reset_comm {s : State} (h : frameSize ≤ s.cap) :
    s.compact.resetIfConsumed.cons = s.resetIfConsumed.compact.cons ∧
      s.compact.resetIfConsumed.app = s.resetIfConsumed.compact.app := by
  by_cases he : s.cons = s.app
  · have hroom : frameSize ≤ ({ s with cons := 0, app := 0 } : State).cap - 0 := h
    rw [resetIfConsumed_of_eq he, compact_of_room hroom]
    rcases compact_reset_cases s with ⟨_, e⟩ | ⟨_, _, e⟩ | ⟨_, hne, _⟩
    · rw [e]
      exact ⟨rfl, Nat.sub_eq_zero_of_le (Nat.le_of_eq he.symm)⟩
    · rw [e]
      exact ⟨rfl, rfl⟩
    · exact absurd he hne
  · rw [resetIfConsumed_of_ne he]
    rcases compact_reset_cases s with ⟨hfull, e⟩ | ⟨_, he', _⟩ | ⟨hroom, _, e⟩
    · rw [e, compact_of_full hfull]
      exact ⟨rfl, rfl⟩
    · exact absurd he' he
    · rw [e, compact_of_room hroom]
      exact ⟨rfl, rfl⟩

/-- Settles O31: the two branches of each update, and the two orders of compaction and reset. -/
theorem cursorsAfterTheScan : Obligations.CursorsAfterTheScan := fun _ =>
  ⟨rfl, fun _ => rfl, resetIfConsumed_of_eq, resetIfConsumed_of_ne, cursors_compact_reset_comm⟩

/-- What a read sees after compaction with less than a frame free (R101). -/
theorem read_compact_of_full {s : State} (hw : s.buf.wf = true) (hfull : s.cap - s.app < frameSize) (o : Nat) :
    s.compact.buf.read o = if o < s.app - s.cons then s.buf.read (s.cons + o) else s.buf.read o := by
  rw [compact_of_full hfull, Memory.read_moveDown hw]
  simp

/-- Settles O32: compaction is a move down to offset 0 where less than a frame is free, and no move elsewhere. -/
theorem compactionMovesTheTail : Obligations.CompactionMovesTheTail := by
  refine fun s hw => ⟨compact_of_room, compact_of_cons_zero hw, fun hfull => ?_⟩
  have hcompact := compact_of_full hfull
  exact ⟨by rw [hcompact], by rw [hcompact], by rw [hcompact], read_compact_of_full hw hfull⟩

end Sys2Proof.Machine
end

section
/-! PROOFS, family 41_synchronizer.md. PUSH in one step is the transaction (41_synchronizer.md R104): it completes with
a ready consumer and holds with another (R118), what it writes and what it leaves, and how much it emits (R107). -/

namespace Sys2Proof.Machine

/-! ### The step and the transaction -/

/-- At an operation boundary M-final is the cursor advance, compaction and the full-consumption reset alone. -/
theorem finalize_of_idle {s : State} (hp : s.phase = .idle) (last : Option Nat) :
    s.finalize last = (s.advanceCons last).compact.resetIfConsumed := by
  have hphase : (s.advanceCons last).compact.resetIfConsumed.phase = .idle := by simpa using hp
  exact congrArg (fun ph => { (s.advanceCons last).compact.resetIfConsumed with phase := ph }) hphase.symm

@[simp] theorem afterAppend_cap (s : State) (b : List Byte) : (s.afterAppend b).cap = s.cap := State.admitBatch_cap s b

@[simp] theorem afterAppend_phase (s : State) (b : List Byte) : (s.afterAppend b).phase = s.phase := by
  simp [State.afterAppend]

theorem afterAppend_bufWf {s : State} (h : s.buf.wf = true) (b : List Byte) : (s.afterAppend b).buf.wf = true :=
  Memory.wf_writeList (overflowGuard_bufWf h b.length) _ _

/-- The transaction is M-final behind every match counted and emitted (R104). -/
theorem pushTransaction_eq_finalize {b : List Byte} {s : State} (hp : s.phase = .idle) :
    pushTransaction b s = ((s.afterAppend b).emitted (s.afterAppend b).matchedPositions).finalize
      (endOf none (s.afterAppend b).matchedPositions) := by
  have hidle : ((s.afterAppend b).emitted (s.afterAppend b).matchedPositions).phase = .idle :=
    (afterAppend_phase s b).trans hp
  rw [finalize_of_idle hidle, endOf_none]
  rfl

/-- M-admit's scan is over the batch just appended, from CONS on (R91). -/
theorem admitBatch_phase (b : List Byte) (s : State) :
    (s.admitBatch b).phase = .scan (s.afterAppend b).cons none := rfl

/-- With no turn listed, an admitted PUSH is the run of its micro-steps. -/
theorem execPush_no_turns {b : List Byte} {s : State} (hp : s.phase = .idle) (ht : s.turns = []) (h1 : 1 ≤ b.length)
    (hb : b.length ≤ s.cap) : execPush b s = syncRun (s.admitBatch b) := by
  rw [execPush_admitted hp h1 hb, continuePush_of_no_turns (by rwa [State.admitBatch_turns])]

/-- With a ready consumer and no turn listed, PUSH is the transaction. -/
theorem execPush_quiet {b : List Byte} {s : State} (hq : s.Quiet) (h1 : 1 ≤ b.length) (hb : b.length ≤ s.cap) :
    execPush b s = .next (pushTransaction b s) := by
  obtain ⟨hp, hr, ht⟩ := hq
  have hready : (s.admitBatch b).ready = true := by rwa [State.admitBatch_ready]
  rw [execPush_no_turns hp ht h1 hb, syncRun,
    runSync_scan _ _ _ _ (admitBatch_app_le hb) hready (by omega) (admitBatch_phase b s),
    pushTransaction_eq_finalize hp]
  exact congrArg Host.Outcome.next (finalize_phase ((s.afterAppend b).emitted _) (.scan (s.afterAppend b).cons none) _)

/-- Settles O33: the run of the micro-steps ends in the transaction's state. -/
theorem pushCompletes : Obligations.PushCompletes := fun _ _ => execPush_quiet

/-- Where nothing matches, the transaction is M-final with CONS where it was (R100). -/
theorem pushTransaction_of_no_match {b : List Byte} {s : State} (hp : s.phase = .idle)
    (h : (s.afterAppend b).matchedPositions = []) : pushTransaction b s = (s.afterAppend b).finalize none := by
  rw [pushTransaction_eq_finalize hp, h, State.emitted_nil, endOf_nil]

/-- Settles O34: the run of the micro-steps stops at M-emit of its first match, and without one at M-final. -/
theorem pushHoldsAtItsFirstMatch : Obligations.PushHoldsAtItsFirstMatch := by
  intro b s hp hr ht h1 hb
  have hready : (s.admitBatch b).ready = false := by rwa [State.admitBatch_ready]
  have hrun := runSync_scan_held _ _ _ _ (admitBatch_app_le hb) hready (by omega : _ ≤ 2 * (s.admitBatch b).app + 3)
    (admitBatch_phase b s)
  have hscan : greedyAt (isFrameAt (s.admitBatch b).buf) (s.admitBatch b).app (s.afterAppend b).cons =
    (s.afterAppend b).matchedPositions := rfl
  rw [hscan] at hrun
  rw [exec_push, execPush_no_turns hp ht h1 hb, syncRun, hrun]
  cases hm : (s.afterAppend b).matchedPositions with
  | nil =>
    rw [pushTransaction_of_no_match hp hm]
    exact congrArg Host.Outcome.next (finalize_phase (s.afterAppend b) (.scan (s.afterAppend b).cons none) none)
  | cons q qs => rfl

/-! ### What a PUSH leaves unchanged -/

/-- The fields that no PUSH writes are the same. -/
def SameOutsidePush (s t : State) : Prop :=
  t.cap = s.cap ∧ t.encOut = s.encOut ∧ t.flCount = s.flCount ∧ t.requests = s.requests ∧ t.turns = s.turns ∧
    t.ready = s.ready

theorem SameOutsidePush.refl (s : State) : SameOutsidePush s s := ⟨rfl, rfl, rfl, rfl, rfl, rfl⟩

theorem SameOutsidePush.trans {s t u : State} (h : SameOutsidePush s t) (h' : SameOutsidePush t u) :
    SameOutsidePush s u := by
  obtain ⟨hcap, henc, hfl, hreq, hturns, hready⟩ := h
  obtain ⟨hcap', henc', hfl', hreq', hturns', hready'⟩ := h'
  exact ⟨hcap'.trans hcap, henc'.trans henc, hfl'.trans hfl, hreq'.trans hreq, hturns'.trans hturns,
    hready'.trans hready⟩

theorem sameOutsidePush_admitBatch (s : State) (b : List Byte) : SameOutsidePush s (s.admitBatch b) := by
  simp [SameOutsidePush]

/-- Settles O35: neither M-admit nor any micro-step writes these fields. -/
theorem pushFrame : Obligations.PushFrame := by
  intro b s t h
  obtain ⟨_, _, rfl | rfl | hrun⟩ := execPush_next h
  · exact SameOutsidePush.refl _
  · exact sameOutsidePush_admitBatch s b
  · exact runSync_keeps (P := SameOutsidePush s) (fun _ _ hs hm => hs.trans (microStep_frame hm))
      (sameOutsidePush_admitBatch s b) hrun

/-! ### The buffer after a PUSH -/

/-- What a read sees after the cursor advance, compaction and the full-consumption reset (R100 to R102). -/
theorem read_advance_compact_reset {u : State} (hw : u.buf.wf = true) (last : Option Nat) (o : Nat) :
    (u.advanceCons last).compact.resetIfConsumed.buf.read o =
      if u.cap - u.app < frameSize ∧ o < u.app - u.consumedBy last then u.buf.read (u.consumedBy last + o)
      else u.buf.read o := by
  rw [State.resetIfConsumed_buf, advanceCons_eq]
  by_cases hfull : u.cap - u.app < frameSize
  · rw [read_compact_of_full (s := { u with cons := u.consumedBy last }) hw hfull]
    simp only [hfull, true_and]
  · rw [compact_of_room (s := { u with cons := u.consumedBy last }) (Nat.not_lt.1 hfull), if_neg fun h => hfull h.1]

/-- Settles O36: behind the append, a PUSH writes the buffer by compaction alone. -/
theorem pushMemory : Obligations.PushMemory := by
  intro b s hw hq h1 hb
  have hread := read_advance_compact_reset
    (u := (s.afterAppend b).emitted (s.afterAppend b).matchedPositions) (afterAppend_bufWf hw b)
    ((s.afterAppend b).matchedPositions.getLast?.map fun q => q + 25)
  refine ⟨pushTransaction b s, execPush_quiet hq h1 hb, fun o => ?_⟩
  rw [← afterAppend_cap s b]
  exact hread o

/-! ### Records and counter -/

theorem pushTransaction_recOut (b : List Byte) (s : State) :
    (pushTransaction b s).recOut = s.recOut ++ (s.afterAppend b).matchedRecords := by
  simp [pushTransaction, afterAppend_recOut]

theorem pushTransaction_flc (b : List Byte) (s : State) :
    (pushTransaction b s).flc = s.flc + BitVec.ofNat 32 (countLost (s.afterAppend b).matchedRecords) := by
  simp [pushTransaction, afterAppend_flc]

/-- A scan of `n` bytes matches at most `n / 25` times, since it skips every matched frame (R107). -/
theorem length_greedyAt_le (test : Nat → Bool) (stop q : Nat) :
    (greedyAt test stop q).length ≤ (stop - q) / frameSize := by
  induction q using scan_induction stop with
  | done q h =>
    rw [greedyAt_done h]
    exact Nat.zero_le _
  | next q h ih1 ih25 =>
    simp only [frameSize] at h ih1 ih25 ⊢
    cases ht : test q with
    | false =>
      rw [greedyAt_mismatch h ht]
      omega
    | true =>
      rw [greedyAt_match h ht, List.length_cons]
      simp only [frameSize]
      omega

/-- Settles O37: the records are those of the matched positions, which the scan's length bounds. -/
theorem pushCountBounds : Obligations.PushCountBounds := by
  intro b s hq h1 hb
  refine ⟨pushTransaction b s, _, execPush_quiet hq h1 hb, pushTransaction_recOut b s, ?_, pushTransaction_flc b s⟩
  rw [State.matchedRecords, List.length_map]
  exact length_greedyAt_le _ _ _

/-! ### The flags of a record -/

theorem payloadOf_congr {F G : Frame} (h : ∀ k : Fin 25, 1 ≤ k.val → k.val ≤ 22 → F.get k = G.get k) :
    payloadOf F = payloadOf G := by
  have hbyte : ∀ k : Fin 22, F.get ⟨1 + k.val, by omega⟩ = G.get ⟨1 + k.val, by omega⟩ := fun k =>
    h _ (Nat.le_add_right _ _) (by simp only; omega)
  simp only [payloadOf, hbyte]

/-- Bytes with equal low halves agree in the four flag bits (R97). -/
theorem getLsbD_congr_of_low_half {f g : Byte} (h : f.setWidth 4 = g.setWidth 4) {i : Nat} (hi : i < 4) :
    f.getLsbD i = g.getLsbD i := by
  have hbit := congrArg (·.getLsbD i) h
  simpa [BitVec.getLsbD_setWidth, hi] using hbit

/-- Settles O9: the payload is made of `F1..F22`, and each flag is one of the low four bits of `F23`. -/
theorem decodedFlagsAndIgnoredBits : Obligations.DecodedFlagsAndIgnoredBits := by
  refine ⟨fun F => ⟨rfl, rfl, rfl, rfl⟩, fun F G hbytes hlow => ?_⟩
  have hbit := fun i hi => getLsbD_congr_of_low_half (i := i) hlow hi
  simp only [decodeFrame, payloadOf_congr hbytes, digital1Flag, digital2Flag, frameLostFlag, failSafeFlag,
    hbit 0 (by decide), hbit 1 (by decide), hbit 2 (by decide), hbit 3 (by decide)]

end Sys2Proof.Machine
end

section
/-! PROOFS, family 41_synchronizer.md. Byte streams without a machine (41_synchronizer.md R106): the greedy scan of
`S ++ b` is that of `S`, gone on with over the bytes behind its last match; and what garbage and valid frames give. -/

namespace Sys2Proof.Machine

/-! ### A stream cut in two -/

/-- The match test on a stream (R59). -/
def streamTest (S : List Byte) (q : Nat) : Bool := isFrameEnds (S.getD q 0#8) (S.getD (q + 24) 0#8)

/-- Where the last match of a stream ends, 0 without one. -/
def streamEnd (S : List Byte) : Nat := endAt (greedyStream S) 0

/-- The bytes of a stream behind its last match. -/
def streamRest (S : List Byte) : List Byte := S.drop (streamEnd S)

theorem greedyStream_eq (S : List Byte) : greedyStream S = greedyAt (streamTest S) S.length 0 := rfl

theorem streamEnd_le (S : List Byte) : streamEnd S ≤ S.length := endAt_le (Nat.zero_le _)

theorem length_streamRest_le (S : List Byte) : (streamRest S).length ≤ S.length := by simp [streamRest]

theorem streamRest_append_eq_drop (S b : List Byte) : streamRest S ++ b = (S ++ b).drop (streamEnd S) :=
  (List.drop_append_of_le_length (streamEnd_le S)).symm

theorem getD_drop (S : List Byte) (e j : Nat) : (S.drop e).getD j 0#8 = S.getD (e + j) 0#8 := by
  simp [List.getD_eq_getElem?_getD]

theorem streamTest_drop (S : List Byte) (e q : Nat) : streamTest (S.drop e) q = streamTest S (e + q) := by
  rw [streamTest, streamTest, getD_drop, getD_drop, Nat.add_assoc]

theorem streamWindow_drop (S : List Byte) (e q : Nat) : streamWindow (S.drop e) q = streamWindow S (e + q) := by
  simp only [streamWindow, getD_drop, Nat.add_assoc]

theorem getElem_streamWindow (S : List Byte) (q k : Nat) (h : k < 25) : (streamWindow S q)[k] = S.getD (q + k) 0#8 := by
  simp [streamWindow]

theorem streamTest_append {S : List Byte} (b : List Byte) {q : Nat} (h : q + frameSize ≤ S.length) :
    streamTest (S ++ b) q = streamTest S q := by
  simp only [frameSize] at h
  rw [streamTest, streamTest, List.getD_append _ _ _ _ (by omega), List.getD_append _ _ _ _ (by omega)]

theorem streamWindow_append {S : List Byte} (b : List Byte) {q : Nat} (h : q + frameSize ≤ S.length) :
    streamWindow (S ++ b) q = streamWindow S q := by
  simp only [frameSize] at h
  refine Vector.ext fun k hk => ?_
  rw [getElem_streamWindow _ _ _ hk, getElem_streamWindow _ _ _ hk, List.getD_append _ _ _ _ (by omega)]

/-- A scan from `e` on is the scan of the bytes from `e` on. -/
theorem greedyAt_streamTest_drop {S : List Byte} {e : Nat} (h : e ≤ S.length) :
    greedyAt (streamTest S) S.length e = (greedyStream (S.drop e)).map (e + ·) := by
  have hshift := greedyAt_shift (streamTest S) e (S.drop e).length 0
  rw [List.length_drop, Nat.add_sub_cancel' h, Nat.add_zero] at hshift
  rw [hshift, greedyStream_eq, List.length_drop, ← funext (streamTest_drop S e)]

/-- The greedy scan of `S ++ b` finds the matches of `S`, then those of what `S` leaves in front of `b`. -/
theorem greedyStream_append (S b : List Byte) :
    greedyStream (S ++ b) = greedyStream S ++ (greedyStream (streamRest S ++ b)).map (streamEnd S + ·) := by
  have hlen : S.length ≤ (S ++ b).length := by simp
  have hfirst : greedyAt (streamTest (S ++ b)) S.length 0 = greedyStream S :=
    greedyAt_congr fun x _ hx => streamTest_append b hx
  rw [greedyStream_eq (S ++ b), greedyAt_resume _ hlen, hfirst, streamRest_append_eq_drop]
  exact congrArg (greedyStream S ++ ·) (greedyAt_streamTest_drop ((streamEnd_le S).trans hlen))

theorem streamRecords_append (S b : List Byte) :
    streamRecords (S ++ b) = streamRecords S ++ streamRecords (streamRest S ++ b) := by
  have hfirst : (greedyStream S).map (fun q => decodeFrame (streamWindow (S ++ b) q)) = streamRecords S :=
    List.map_congr_left fun q hq => by rw [streamWindow_append b (greedyAt_bound hq).2.1]
  have hsecond : ((greedyStream (streamRest S ++ b)).map (streamEnd S + ·)).map
      (fun q => decodeFrame (streamWindow (S ++ b) q)) = streamRecords (streamRest S ++ b) := by
    rw [List.map_map, streamRecords, streamRest_append_eq_drop]
    exact List.map_congr_left fun q _ => by rw [streamWindow_drop, Function.comp_apply]
  rw [streamRecords, greedyStream_append, List.map_append, hfirst, hsecond]

theorem streamEnd_append (S b : List Byte) : streamEnd (S ++ b) = streamEnd S + streamEnd (streamRest S ++ b) := by
  rw [streamEnd, greedyStream_append, endAt_append]
  exact endAt_map_add _ (streamEnd S) 0

theorem streamRest_append (S b : List Byte) : streamRest (S ++ b) = streamRest (streamRest S ++ b) := by
  rw [streamRest, streamRest, streamEnd_append, ← List.drop_drop, ← streamRest_append_eq_drop]

/-! ### One match at the front -/

/-- A stream with a match at 0 and no room for another frame behind it (R96). -/
theorem greedyStream_singleton {S : List Byte} (h25 : 25 ≤ S.length) (h50 : S.length < 50)
    (ht : streamTest S 0 = true) : greedyStream S = [0] := by
  rw [greedyStream_eq, greedyAt_match (Nat.zero_add frameSize ▸ h25) ht, greedyAt_done (by simpa [frameSize] using h50)]

theorem streamRecords_of_singleton {S : List Byte} {q : Nat} (h : greedyStream S = [q]) :
    streamRecords S = [decodeFrame (streamWindow S q)] := by
  rw [streamRecords, h]
  rfl

theorem streamRest_of_singleton {S : List Byte} {q : Nat} (h : greedyStream S = [q]) :
    streamRest S = S.drop (q + frameSize) := by
  rw [streamRest, streamEnd, h]
  rfl

/-! ### Valid frames -/

theorem getD_frame (F : Frame) (k : Nat) (h : k < 25) : F.toList.getD k 0#8 = F[k] := by
  simp [List.getD_eq_getElem?_getD, h]

theorem streamWindow_frame (F : Frame) : streamWindow F.toList 0 = F := by
  refine Vector.ext fun k hk => ?_
  rw [getElem_streamWindow _ _ _ hk, Nat.zero_add, getD_frame F k hk]

theorem streamTest_frame {F : Frame} (h : ValidFrame F) : streamTest F.toList 0 = true := by
  rw [streamTest, getD_frame F 0 (by decide), getD_frame F 24 (by decide)]
  exact h

theorem greedyStream_frame {F : Frame} (h : ValidFrame F) : greedyStream F.toList = [0] := by
  have hlen : F.toList.length = 25 := F.length_toList
  exact greedyStream_singleton (by omega) (by omega) (streamTest_frame h)

theorem streamRecords_frame {F : Frame} (h : ValidFrame F) : streamRecords F.toList = [decodeFrame F] := by
  rw [streamRecords_of_singleton (greedyStream_frame h), streamWindow_frame]

theorem streamRest_frame {F : Frame} (h : ValidFrame F) : streamRest F.toList = [] := by
  rw [streamRest_of_singleton (greedyStream_frame h)]
  exact List.drop_of_length_le (Nat.le_of_eq F.length_toList)

/-- A valid frame in front of a stream is its first record (R111). -/
theorem streamRecords_frame_append {F : Frame} (h : ValidFrame F) (S : List Byte) :
    streamRecords (F.toList ++ S) = decodeFrame F :: streamRecords S := by
  rw [streamRecords_append, streamRecords_frame h, streamRest_frame h]
  rfl

theorem streamRest_frame_append {F : Frame} (h : ValidFrame F) (S : List Byte) :
    streamRest (F.toList ++ S) = streamRest S := by
  rw [streamRest_append, streamRest_frame h, List.nil_append]

theorem streamOf_cons (F : Frame) (Fs : List Frame) : streamOf (F :: Fs) = F.toList ++ streamOf Fs := rfl

theorem length_streamOf (Fs : List Frame) : (streamOf Fs).length = 25 * Fs.length := by
  induction Fs with
  | nil => rfl
  | cons F Fs ih =>
    rw [streamOf_cons, List.length_append, ih, List.length_cons, F.length_toList]
    omega

/-- Valid frames one behind the other are the records, in order (R111). -/
theorem streamRecords_streamOf {Fs : List Frame} (h : ∀ F ∈ Fs, ValidFrame F) :
    streamRecords (streamOf Fs) = Fs.map decodeFrame := by
  induction Fs with
  | nil => rfl
  | cons F Fs ih =>
    obtain ⟨hF, hFs⟩ := List.forall_mem_cons.1 h
    rw [streamOf_cons, streamRecords_frame_append hF, ih hFs, List.map_cons]

theorem streamRest_streamOf {Fs : List Frame} (h : ∀ F ∈ Fs, ValidFrame F) : streamRest (streamOf Fs) = [] := by
  induction Fs with
  | nil => rfl
  | cons F Fs ih =>
    obtain ⟨hF, hFs⟩ := List.forall_mem_cons.1 h
    rw [streamOf_cons, streamRest_frame_append hF, ih hFs]

/-- A clean stream, cut off anywhere, leaves less than a frame behind its last match (R109). -/
theorem length_streamRest_lt {Fs : List Frame} {S : List Byte} (h : ∀ F ∈ Fs, ValidFrame F) (hS : S <+: streamOf Fs) :
    (streamRest S).length < 25 := by
  induction Fs generalizing S with
  | nil =>
    rw [List.prefix_nil.1 hS]
    decide
  | cons F Fs ih =>
    obtain ⟨hF, hFs⟩ := List.forall_mem_cons.1 h
    by_cases hshort : S.length < 25
    · exact Nat.lt_of_le_of_lt (length_streamRest_le S) hshort
    · rw [streamOf_cons] at hS
      have hlen : F.toList.length ≤ S.length := by
        rw [F.length_toList]
        omega
      obtain ⟨T, rfl⟩ := List.prefix_of_prefix_length_le (List.prefix_append _ _) hS hlen
      rw [streamRest_frame_append hF]
      exact ih hFs ((List.prefix_append_right_inj _).1 hS)

/-! ### Garbage in front of a valid frame -/

/-- No byte of garbage without 0x0F is a header (R95). -/
theorem streamTest_garbage {g : List Byte} (hg : 0x0F#8 ∉ g) (S : List Byte) {q : Nat} (hq : q < g.length) :
    streamTest (g ++ S) q = false := by
  have hbyte : (g ++ S).getD q 0#8 ≠ 0x0F#8 := by
    rw [List.getD_append _ _ _ _ hq, List.getD_eq_getElem _ _ hq]
    exact fun h => hg (h ▸ List.getElem_mem hq)
  exact Bool.eq_false_iff.2 fun h => hbyte ((isFrameEnds_iff _ _).1 h).1

/-- Garbage without 0x0F is passed over, and the frame behind it is the one match (90_conflicts.md C4). -/
theorem greedyStream_garbage_frame {g : List Byte} {F : Frame} (hg : 0x0F#8 ∉ g) (hF : ValidFrame F) :
    greedyStream (g ++ F.toList) = [g.length] := by
  have hlen : g.length + frameSize ≤ (g ++ F.toList).length := by
    rw [List.length_append, F.length_toList]
    exact Nat.le_refl _
  rw [greedyStream_eq, greedyAt_skip (Nat.zero_le _) hlen fun x _ hx => streamTest_garbage hg _ hx,
    greedyAt_streamTest_drop (Nat.le_of_add_right_le hlen), List.drop_left, greedyStream_frame hF]
  rfl

theorem streamRecords_garbage_frame {g : List Byte} {F : Frame} (hg : 0x0F#8 ∉ g) (hF : ValidFrame F) :
    streamRecords (g ++ F.toList) = [decodeFrame F] := by
  have hwindow := streamWindow_drop (g ++ F.toList) g.length 0
  rw [List.drop_left, streamWindow_frame, Nat.add_zero] at hwindow
  rw [streamRecords_of_singleton (greedyStream_garbage_frame hg hF), ← hwindow]

theorem streamRest_garbage_frame {g : List Byte} {F : Frame} (hg : 0x0F#8 ∉ g) (hF : ValidFrame F) :
    streamRest (g ++ F.toList) = [] := by
  rw [streamRest_of_singleton (greedyStream_garbage_frame hg hF)]
  refine List.drop_of_length_le ?_
  rw [List.length_append, F.length_toList]
  exact Nat.le_refl _

/-! ### A garbage 0x0F in front of an ENC frame -/

/-- A byte 0x0F in front of an ENC frame matches, for its flags byte 0x00 stands 24 positions on (R79, R110). -/
theorem greedyStream_false_sync (r : EncRecord) : greedyStream (0x0F#8 :: (encodeFrame r).toList) = [0] := by
  have hlen : (0x0F#8 :: (encodeFrame r).toList).length = 26 := by simp
  have hflags : (encodeFrame r).toList.getD 23 0#8 = 0x00#8 :=
    (getD_frame _ 23 (by decide)).trans (get_encodeFrame_flags r)
  refine greedyStream_singleton (by omega) (by omega) ?_
  rw [streamTest, Nat.zero_add, List.getD_cons_succ, hflags]
  rfl

/-- The end marker of the frame is all that the false match leaves (R110). -/
theorem streamRest_false_sync (r : EncRecord) : streamRest (0x0F#8 :: (encodeFrame r).toList) = [0x00#8] := by
  have hend : (encodeFrame r)[24] = 0x00#8 := getElem_encodeFrame r 24 (by decide)
  have hdrop : (encodeFrame r).toList.drop 24 = [(encodeFrame r)[24]] := by
    rw [List.drop_eq_getElem_cons (by simp), List.drop_of_length_le (by simp)]
    simp
  have h25 : 0 + frameSize = 24 + 1 := rfl
  rw [streamRest_of_singleton (greedyStream_false_sync r), h25, List.drop_succ_cons, hdrop, hend]

end Sys2Proof.Machine
end

section
/-! PROOFS, family 41_synchronizer.md. A PUSH on a byte stream (41_synchronizer.md R106): the retained bytes are what
the stream has left behind its last match, and every batch that fires no guard goes on from there. -/

namespace Sys2Proof.Machine

/-! ### Lists of bytes read -/

theorem readList_congr {m m' : Memory} {o o' n : Nat} (h : ∀ j, j < n → m.read (o + j) = m'.read (o' + j)) :
    m.readList o n = m'.readList o' n :=
  List.map_congr_left fun j hj => h j (List.mem_range.1 hj)

theorem readList_add (m : Memory) (o k n : Nat) : m.readList o (k + n) = m.readList o k ++ m.readList (o + k) n := by
  simp [Memory.readList, List.range_add, Nat.add_assoc]

theorem drop_readList (m : Memory) (o n k : Nat) : (m.readList o n).drop k = m.readList (o + k) (n - k) := by
  refine List.ext_getElem (by simp) fun j _ _ => ?_
  rw [List.getElem_drop, Memory.getElem_readList, Memory.getElem_readList, Nat.add_assoc]

theorem getD_readList (m : Memory) (o : Nat) {n j : Nat} (h : j < n) :
    (m.readList o n).getD j 0#8 = m.read (o + j) := by
  rw [List.getD_eq_getElem _ _ (by simpa using h), Memory.getElem_readList]

/-- The bytes written read back (R90). -/
theorem readList_writeList {m : Memory} (hw : m.wf = true) (o : Nat) (b : List Byte) :
    (m.writeList o b).readList o b.length = b := by
  refine List.ext_getElem (Memory.length_readList ..) fun j h1 h2 => ?_
  rw [Memory.getElem_readList, Memory.read_writeList hw, if_pos (by omega), Nat.add_sub_cancel_left,
    List.getD_eq_getElem _ _ h2]

/-! ### The retained bytes -/

/-- The offset-`j` byte of the retained ones (R30). -/
theorem getD_retained {s : State} {j : Nat} (h : s.cons + j < s.app) :
    s.retained.getD j 0#8 = s.buf.read (s.cons + j) :=
  getD_readList _ _ (by omega)

@[simp] theorem length_retained (s : State) : s.retained.length = s.app - s.cons := Memory.length_readList ..

/-- A match of the buffer is one of the retained bytes. -/
theorem isFrameAt_cons_add {s : State} {j : Nat} (h : s.cons + j + frameSize ≤ s.app) :
    isFrameAt s.buf (s.cons + j) = streamTest s.retained j := by
  simp only [frameSize] at h
  rw [isFrameAt, streamTest, getD_retained (by omega), getD_retained (by omega), Nat.add_assoc]

theorem recordAt_cons_add {s : State} {j : Nat} (h : s.cons + j + frameSize ≤ s.app) :
    recordAt s.buf (s.cons + j) = decodeFrame (streamWindow s.retained j) := by
  simp only [frameSize] at h
  have hwindow : s.buf.window (s.cons + j) = streamWindow s.retained j := by
    refine Vector.ext fun k hk => ?_
    rw [Memory.getElem_window _ _ _ hk, getElem_streamWindow _ _ _ hk, getD_retained (by omega), Nat.add_assoc]
  rw [recordAt, hwindow]

/-- The scan from CONS is the greedy scan of the retained bytes (R106). -/
theorem matchedPositions_eq {s : State} (h : s.cons ≤ s.app) :
    s.matchedPositions = (greedyStream s.retained).map (s.cons + ·) := by
  have hshift := greedyAt_shift (isFrameAt s.buf) s.cons (s.app - s.cons) 0
  rw [Nat.add_sub_cancel' h, Nat.add_zero] at hshift
  rw [greedyStream_eq, length_retained]
  refine hshift.trans (congrArg _ (greedyAt_congr fun j _ hj => isFrameAt_cons_add ?_))
  simp only [frameSize] at hj ⊢
  omega

theorem matchedRecords_eq {s : State} (h : s.cons ≤ s.app) : s.matchedRecords = streamRecords s.retained := by
  rw [State.matchedRecords, matchedPositions_eq h, List.map_map]
  refine List.map_congr_left fun j hj => recordAt_cons_add ?_
  have hstop := (greedyAt_bound hj).2.1
  simp only [length_retained, frameSize] at hstop ⊢
  omega

/-- The scan's last match ends where the stream of the retained bytes says. -/
theorem consumedBy_endOf_matchedPositions {s : State} (h : s.cons ≤ s.app) :
    s.consumedBy (endOf none s.matchedPositions) = s.cons + streamEnd s.retained := by
  rw [endOf_none, matchedPositions_eq h]
  exact endAt_map_add (greedyStream s.retained) s.cons 0

/-- An append adds the batch to the retained bytes (R90). -/
theorem retained_append {s : State} (hw : s.buf.wf = true) (h : s.cons ≤ s.app) (b : List Byte) :
    (s.append b).retained = s.retained ++ b := by
  have hlen : s.app + b.length - s.cons = (s.app - s.cons) + b.length := by omega
  have hold : (s.buf.writeList s.app b).readList s.cons (s.app - s.cons) = s.retained := by
    refine readList_congr fun j hj => ?_
    rw [Memory.read_writeList hw, if_neg (by omega)]
  rw [State.retained, State.append_buf, State.append_cons, State.append_app, hlen, readList_add, hold,
    Nat.add_sub_cancel' h, readList_writeList hw]

/-- M-final retains the bytes behind the `k` that the PUSH consumed (R100 to R102). -/
theorem retained_finalize {s : State} {last : Option Nat} {k : Nat} (hw : s.buf.wf = true)
    (hk : s.consumedBy last = s.cons + k) (h : s.cons + k ≤ s.app) :
    (s.finalize last).retained = s.retained.drop k := by
  obtain ⟨hlen, _, hread⟩ := finalize_keeps_bytes hw (hk ▸ h)
  rw [State.retained, hlen, hk, State.retained, drop_readList, Nat.sub_add_eq]
  rw [hk, Nat.sub_add_eq] at hread
  exact readList_congr hread

/-- M-final behind the whole scan retains what the stream of the retained bytes leaves (R106). -/
theorem retained_finalize_matches {s : State} (hw : s.buf.wf = true) (h : s.cons ≤ s.app) :
    ((s.emitted s.matchedPositions).finalize (endOf none s.matchedPositions)).retained = streamRest s.retained := by
  have hend := streamEnd_le s.retained
  rw [length_retained] at hend
  exact retained_finalize (s := s.emitted s.matchedPositions) hw (consumedBy_endOf_matchedPositions h)
    (Nat.add_le_of_le_sub' h hend)

/-! ### One PUSH that fires no guard -/

section
variable {s : State} {b : List Byte} (h : BlockInv s) (hp : s.phase = .idle) (hroom : s.app + b.length ≤ s.cap)
include h hroom

/-- Guard and append add the batch to the retained bytes. -/
theorem retained_afterAppend : (s.afterAppend b).retained = s.retained ++ b := by
  rw [afterAppend_of_room hroom, retained_append h.bufWf h.consLeApp]

theorem afterAppend_cons_le_app : (s.afterAppend b).cons ≤ (s.afterAppend b).app := by
  rw [afterAppend_of_room hroom]
  exact Nat.le_add_right_of_le h.consLeApp

/-- The records are those of the retained bytes with the batch behind (R106). -/
theorem matchedRecords_afterAppend : (s.afterAppend b).matchedRecords = streamRecords (s.retained ++ b) := by
  rw [matchedRecords_eq (afterAppend_cons_le_app h hroom), retained_afterAppend h hroom]

include hp

theorem retained_pushTransaction : (pushTransaction b s).retained = streamRest (s.retained ++ b) := by
  rw [pushTransaction_eq_finalize hp,
    retained_finalize_matches (afterAppend_bufWf h.bufWf b) (afterAppend_cons_le_app h hroom),
    retained_afterAppend h hroom]

end

/-- With a ready consumer and no turn listed, a batch that fires no guard is the transaction, the empty one too. -/
theorem BlockInv.execPush_quiet {s : State} {b : List Byte} (h : BlockInv s) (hq : s.Quiet)
    (hroom : s.app + b.length ≤ s.cap) : execPush b s = .next (pushTransaction b s) := by
  by_cases hb : b = []
  · rw [hb, h.pushTransaction_nil hq.1, execPush_nil hq.1]
  · exact Machine.execPush_quiet hq (List.length_pos_of_ne_nil hb) (Nat.le_of_add_left_le hroom)

theorem quiet_pushTransaction {s : State} (hq : s.Quiet) (b : List Byte) : (pushTransaction b s).Quiet := by
  simpa [State.Quiet, pushTransaction, State.afterAppend] using hq

theorem pushTransaction_cap (b : List Byte) (s : State) : (pushTransaction b s).cap = s.cap := by
  simp [pushTransaction]

/-! ### A stream of them -/

theorem countLost_append (recs recs' : List DecRecord) : countLost (recs ++ recs') = countLost recs + countLost recs' :=
  List.countP_append

/-- From `s`, its buffer empty, the stream `S` has been pushed: its records are emitted and counted, and the bytes
behind its last match are retained. -/
structure StreamPushed (s : State) (S : List Byte) (t : State) : Prop where
  inv : BlockInv t
  quiet : t.Quiet
  cap : t.cap = s.cap
  recOut : t.recOut = s.recOut ++ streamRecords S
  flc : t.flc = s.flc + BitVec.ofNat 32 (countLost (streamRecords S))
  retained : t.retained = streamRest S

namespace StreamPushed

variable {s t u : State} {S b : List Byte}

/-- Before the first batch. -/
theorem nil (h : BlockInv s) (hq : s.Quiet) (he : s.Empty) : StreamPushed s [] s where
  inv := h
  quiet := hq
  cap := rfl
  recOut := (List.append_nil _).symm
  flc := (BitVec.add_zero _).symm
  retained := List.length_eq_zero_iff.1 (by rw [length_retained, he.1, he.2])

/-- One more batch that fires no guard (R106). -/
theorem push (h : StreamPushed s S t) (hroom : t.app + b.length ≤ t.cap) :
    exec (.push b) t = .next (pushTransaction b t) ∧ StreamPushed s (S ++ b) (pushTransaction b t) := by
  have hexec : exec (.push b) t = .next (pushTransaction b t) := h.inv.execPush_quiet h.quiet hroom
  have hrecords : (t.afterAppend b).matchedRecords = streamRecords (streamRest S ++ b) :=
    h.retained ▸ matchedRecords_afterAppend h.inv hroom
  refine ⟨hexec, h.inv.exec hexec, quiet_pushTransaction h.quiet b, (pushTransaction_cap b t).trans h.cap, ?_, ?_, ?_⟩
  · rw [pushTransaction_recOut, hrecords, h.recOut, streamRecords_append S b, List.append_assoc]
  · rw [pushTransaction_flc, hrecords, h.flc, streamRecords_append S b, countLost_append, BitVec.ofNat_add,
      BitVec.add_assoc]
  · rw [retained_pushTransaction h.inv h.quiet.1 hroom, h.retained, ← streamRest_append]

/-- The first batch, where it fits the buffer. -/
theorem of_push (h : BlockInv s) (hq : s.Quiet) (he : s.Empty) (hb : b.length ≤ s.cap) :
    exec (.push b) s = .next (pushTransaction b s) ∧ StreamPushed s b (pushTransaction b s) :=
  (nil h hq he).push (by rwa [he.2, Nat.zero_add])

/-- Where a stream leaves nothing behind its last match, the buffer is empty (R102). -/
theorem empty (h : StreamPushed s S t) (hrest : streamRest S = []) : t.Empty := by
  have hle := h.inv.consLeApp
  have hlen := length_retained t
  rw [h.retained, hrest, List.length_nil] at hlen
  have hequal : t.cons = t.app := by omega
  have hcons := (h.inv.idle h.quiet.1).2.2 hequal
  exact ⟨hcons, hequal ▸ hcons⟩

/-- Batches one after the other, none firing the guard (R106). -/
theorem pushAll {bs : List (List Byte)} (h : StreamPushed s S t) (hall : pushAllWithin bs t = some u) :
    StreamPushed s (S ++ bs.flatten) u := by
  induction bs generalizing S t with
  | nil =>
    cases hall
    rwa [List.flatten_nil, List.append_nil]
  | cons b bs ih =>
    rw [pushAllWithin] at hall
    split at hall
    · cases hall
    · next hroom =>
      obtain ⟨hexec, hpushed⟩ := h.push (b := b) (by simpa [State.overflows] using hroom)
      rw [hexec] at hall
      rw [List.flatten_cons, ← List.append_assoc]
      exact ih hpushed hall

/-- Less than a frame retained leaves room for a batch of 25 bytes in a buffer of 50 (R109). -/
theorem room (h : StreamPushed s S t) (hcap : 50 ≤ s.cap) (hrest : (streamRest S).length < 25) (hb : b.length ≤ 25) :
    t.app + b.length ≤ t.cap := by
  have hlen := length_retained t
  obtain ⟨_, hfree, _⟩ := h.inv.idle h.quiet.1
  have hcap' := h.cap
  have happ := h.inv.appLeCap
  rw [h.retained] at hlen
  simp only [frameSize] at hfree
  omega

/-- A clean stream in batches of at most 25 bytes runs through a buffer of 50 bytes or more (R109). -/
theorem pushAll_clean {Fs : List Frame} {bs : List (List Byte)} (h : StreamPushed s S t) (hcap : 50 ≤ s.cap)
    (hFs : ∀ F ∈ Fs, ValidFrame F) (hbs : ∀ b ∈ bs, b.length ≤ 25) (hS : S ++ bs.flatten <+: streamOf Fs) :
    ∃ u, pushAllWithin bs t = some u := by
  induction bs generalizing S t with
  | nil => exact ⟨t, rfl⟩
  | cons b bs ih =>
    obtain ⟨hb, hbs⟩ := List.forall_mem_cons.1 hbs
    have hrest := length_streamRest_lt hFs ((List.prefix_append _ _).trans hS)
    have hroom := h.room hcap hrest hb
    obtain ⟨hexec, hpushed⟩ := h.push hroom
    rw [List.flatten_cons, ← List.append_assoc] at hS
    rw [pushAllWithin, if_neg (by simpa [State.overflows] using hroom), hexec]
    exact ih hpushed hbs hS

end StreamPushed

/-! ### The statements -/

/-- Settles O38: each batch goes on from what the stream before it left, as the scan of the concatenation does. -/
theorem batchBoundariesDoNotMatter : Obligations.BatchBoundariesDoNotMatter := by
  intro bs s t h hq he hall
  have hpushed := (StreamPushed.nil h hq he).pushAll hall
  exact ⟨hpushed.recOut, hpushed.flc, hpushed.retained⟩

/-- Settles O40: a clean stream leaves less than a frame behind its last match, wherever it is cut. -/
theorem cleanStreamNeverOverflows : Obligations.CleanStreamNeverOverflows := by
  intro Fs bs s h hq he hcap hFs hbs hS
  have hnil := StreamPushed.nil h hq he
  obtain ⟨t, ht⟩ := hnil.pushAll_clean hcap hFs hbs hS
  refine ⟨t, ht, ?_⟩
  rw [(hnil.pushAll ht).retained]
  exact length_streamRest_lt hFs hS

/-- Settles O41: the 26 bytes match at 0 alone, and leave their last byte. -/
theorem falseSynchronisation : Obligations.FalseSynchronisation := by
  intro r s h hq he hcap
  obtain ⟨hexec, hpushed⟩ := StreamPushed.of_push (b := 0x0F#8 :: (encodeFrame r).toList) h hq he (by simpa using hcap)
  refine ⟨_, hexec, ?_, ?_⟩
  · rw [hpushed.recOut, streamRecords_of_singleton (greedyStream_false_sync r)]
  · rw [hpushed.retained, streamRest_false_sync]

/-- Settles O42: the garbage is passed over, and the frame behind it is the whole rest. -/
theorem cleanGarbageIsSkipped : Obligations.CleanGarbageIsSkipped := by
  intro g F s h hq he hF hg hcap
  obtain ⟨hexec, hpushed⟩ := StreamPushed.of_push (b := g ++ F.toList) h hq he (by simpa using hcap)
  refine ⟨_, hexec, ?_, hpushed.empty (streamRest_garbage_frame hg hF)⟩
  rw [hpushed.recOut, streamRecords_garbage_frame hg hF]

/-- Settles O43: each valid frame is the first record of the stream that it begins. -/
theorem alignedFramesAllDecoded : Obligations.AlignedFramesAllDecoded := by
  intro Fs s h hq he hFs _ hcap
  obtain ⟨hexec, hpushed⟩ := StreamPushed.of_push (b := streamOf Fs) h hq he (by rwa [length_streamOf])
  refine ⟨_, hexec, ?_, hpushed.empty (streamRest_streamOf hFs)⟩
  rw [hpushed.recOut, streamRecords_streamOf hFs]

/-- Settles O44: the frame of ENC is valid, and decodes to the masked channels without a flag. -/
theorem roundTripThroughTheBlock : Obligations.RoundTripThroughTheBlock := by
  intro r s h hq he
  have henc := exec_enc r s
  have hF := validFrame_encodeFrame r
  obtain ⟨hexec, hpushed⟩ := StreamPushed.of_push (s := s.withEncOut (encodeFrame r)) (b := (encodeFrame r).toList)
    (h.exec henc) hq he ((encodeFrame r).length_toList.trans_le h.capHoldsFrame)
  have hrecords := (streamRecords_frame hF).trans (congrArg ([·]) (decodeFrame_encodeFrame r))
  refine ⟨_, encodeFrame r, _, henc, rfl, hexec, ?_, ?_, hpushed.empty (streamRest_frame hF)⟩
  · rw [hpushed.recOut, hrecords]
    rfl
  · rw [hpushed.flc, hrecords]
    exact BitVec.add_zero _

end Sys2Proof.Machine
end

section
/-! PROOFS, family 60_exceptions.md. No step faults from a state that meets the invariant (60_exceptions.md R113), a
PUSH held at M-emit is moved by the consumer alone (R118), and the steps that perform no request (R122, R126). -/

namespace Sys2Proof.Machine

/-! ### The block raises no exception -/

/-- No operation faults, from whatever state: the micro-steps of a PUSH start with APP within CAP (R90). -/
theorem exec_not_fault (i : Instr) (s : State) (f : Fault) : exec i s ≠ .fault f := by
  cases i with
  | enc r => simp
  | push b =>
    rw [exec_push]
    rcases execPush_cases b s with ⟨_, e⟩ | ⟨_, _, e⟩ | ⟨_, _, e⟩ | ⟨_, _, _, _, e⟩ | ⟨_, _, hb, _, e⟩
    · simp [e]
    · simp [e]
    · simp [e]
    · simp [e]
    · obtain ⟨t, hrun⟩ : ∃ t, syncRun (s.admitBatch b) = .next t := runSync_next _ (admitBatch_app_le hb)
      simp [e, hrun]
  | rdcnt => simp
  | rst =>
    rw [exec_rst]
    by_cases hp : s.phase = .idle
    · simp [execRst_idle hp]
    · simp [execRst_busy hp]

theorem serve_not_fault (s : State) (f : Fault) : serve s ≠ .fault f := by
  unfold serve
  split
  · exact exec_not_fault _ _ f
  · simp
  · simp

/-- A turn faults, if at all, in a micro-step. -/
theorem takeTurn_not_fault {s : State} (hcap : s.app ≤ s.cap) (x : Turn) (f : Fault) : takeTurn x s ≠ .fault f := by
  cases x with
  | sync => exact fun h => absurd (microStep_fault h) (Nat.not_lt.2 hcap)
  | take => simp [takeTurn]
  | ready b => simp [takeTurn]
  | request => exact serve_not_fault s f

theorem defaultMove_not_fault {s : State} (hcap : s.app ≤ s.cap) (f : Fault) : defaultMove s ≠ .fault f := by
  unfold defaultMove
  split
  · exact serve_not_fault s f
  · obtain ⟨t, hrun⟩ : ∃ t, syncRun s = .next t := runSync_next _ hcap
    simp [hrun]

/-- Settles O52: of the invariant, APP within CAP is what keeps every micro-step from the fault (R24, R113). -/
theorem noStepFaults : Obligations.NoStepFaults := by
  intro s f h
  cases ht : s.turns with
  | nil =>
    rw [step_of_turns_nil ht]
    exact defaultMove_not_fault h.appLeCap f
  | cons x ts =>
    rw [step_of_turns_cons ht]
    exact takeTurn_not_fault (s := { s with turns := ts }) h.appLeCap x f

/-! ### The hold at M-emit -/

/-- A settled synchronizer's run of micro-steps is empty. -/
theorem syncRun_of_settled {s : State} (h : s.settled = true) : syncRun s = .next s := if_pos h

theorem syncRun_emit_held {s : State} {p : Nat} {last : Option Nat} {rec : DecRecord} (hp : s.phase = .emit p last rec)
    (hr : s.ready = false) : syncRun s = .next s :=
  syncRun_of_settled (by simp [State.settled, hp, hr])

theorem consumerTake_emit {s : State} {p : Nat} {last : Option Nat} {rec : DecRecord}
    (hp : s.phase = .emit p last rec) : s.consumerTake = s.deliver p rec := by
  simp [State.consumerTake, hp]

/-- Settles O29: the hold is a micro-step that moves nothing, and the consumer's step is the delivery (R118). -/
theorem holdAtEmission : Obligations.HoldAtEmission := fun _ _ _ _ hp hr =>
  ⟨microStep_emit_held hp hr, syncRun_emit_held hp hr, congrArg Host.Outcome.next (consumerTake_emit hp)⟩

theorem SameEngine.refl (s : State) : SameEngine s s := ⟨rfl, rfl, rfl, rfl, rfl, rfl, rfl⟩

/-- An operation performed while a PUSH is in progress leaves the engine as it is: PUSH and RST are refused
(R87, R128), and ENC and RDCNT write their own ports. -/
theorem exec_busy_sameEngine {i : Instr} {s t : State} (hp : s.phase ≠ .idle) (h : exec i s = .next t) :
    SameEngine s t := by
  cases i with
  | enc r =>
    cases h
    exact .of_outside ..
  | push b =>
    rw [exec_push, execPush_busy hp] at h
    cases h
  | rdcnt =>
    cases h
    exact .of_outside ..
  | rst =>
    rw [exec_rst, execRst_busy hp] at h
    cases h

theorem serve_busy_sameEngine {s t : State} (hp : s.phase ≠ .idle) (h : serve s = .next t) : SameEngine s t := by
  unfold serve at h
  split at h
  · next i rest _ =>
    have hs : SameEngine s { s with requests := rest } := .of_outside ..
    exact hs.trans (exec_busy_sameEngine hp h)
  · cases h
    exact .refl s
  · cases h

/-- From a hold, every step but the consumer's leaves the whole engine as it is. -/
theorem step_held_sameEngine {s t : State} {p : Nat} {last : Option Nat} {rec : DecRecord}
    (hp : s.phase = .emit p last rec) (hr : s.ready = false) (hturn : s.turns.head? ≠ some .take)
    (h : step s = .next t) : SameEngine s t := by
  have hbusy : s.phase ≠ .idle := by simp [hp]
  cases ht : s.turns with
  | nil =>
    rw [step_of_turns_nil ht, defaultMove, if_neg hbusy, syncRun_emit_held hp hr] at h
    cases h
    exact .refl s
  | cons x ts =>
    rw [step_of_turns_cons ht] at h
    have hs : SameEngine s { s with turns := ts } := .of_outside ..
    cases x with
    | sync =>
      have hheld : microStep { s with turns := ts } = .next { s with turns := ts } := microStep_emit_held hp hr
      cases hheld.symm.trans h
      exact hs
    | take => exact absurd (congrArg List.head? ht) hturn
    | ready b =>
      cases h
      exact .of_outside ..
    | request => exact hs.trans (serve_busy_sameEngine hbusy h)

/-- Settles O30: M-emit and the record stream are part of the engine, which the other steps leave as it is (R118). -/
theorem onlyTheConsumerLiftsTheHold : Obligations.OnlyTheConsumerLiftsTheHold := by
  intro s t p last rec hp hr hturn h
  have hsame := step_held_sameEngine hp hr hturn h
  exact ⟨hsame.phase.trans hp, hsame.recOut⟩

/-! ### The steps without a request -/

/-- Settles O48: the branches of the step and of its default move, and `serve` where nothing whole is presented
(R122, R126). -/
theorem stepWithoutARequest : Obligations.StepWithoutARequest := by
  refine ⟨fun s x ts => step_of_turns_cons, fun s ht hp => ?_, fun s ht hp hd => ?_⟩
  · rw [step_of_turns_nil ht, defaultMove, if_neg hp]
  · rw [step_of_turns_nil ht, defaultMove, if_pos hp, serve_of_incomplete hd]

end Sys2Proof.Machine
end

section
/-! PROOFS, family 70_reset_and_hazards.md. RST during a PUSH (R128), the state the block starts in (R129), and the
bound on the micro-steps of a scan (R140). -/

namespace Sys2Proof.Machine

/-! ### RST -/

/-- Settles O17: a state with a PUSH in progress is the busy side of RST's one test. -/
theorem rstRefusedDuringPush : Obligations.RstRefusedDuringPush := fun _ => execRst_busy

theorem recreate_reset : State.reset.recreate = State.reset := rfl

/-- Settles O18: the fields are those of `State.reset`, and there RST writes the values that stand (R32, R129). -/
theorem resetState : Obligations.ResetState := by
  have hrst : exec .rst State.reset = .next State.reset :=
    (execRst_idle rfl).trans (congrArg Host.Outcome.next recreate_reset)
  have hcap : 25 ≤ State.reset.cap := Nat.le_add_left 25 Config.spareCap
  exact ⟨rfl, rfl, rfl, Memory.read_nil, rfl, rfl, hrst, hcap⟩

/-! ### The length of a scan -/

theorem takeTurns_sync {s t : State} (h : microStep s = .next t) (ts : List Turn) :
    takeTurns (.sync :: ts) s = takeTurns ts t := by
  rw [takeTurns, takeTurn, h]

/-- At most `k` micro-steps, each taken as a turn of the synchronizer, end the PUSH in progress. -/
def State.EndsWithin (s : State) (k : Nat) : Prop :=
  ∃ n t, n ≤ k ∧ takeTurns (List.replicate n .sync) s = .next t ∧ t.phase = .idle

namespace State.EndsWithin

variable {s t : State} {j k : Nat}

theorem of_idle (h : s.phase = .idle) : s.EndsWithin 0 := ⟨0, s, Nat.le_refl 0, rfl, h⟩

theorem mono (h : s.EndsWithin j) (hjk : j ≤ k) : s.EndsWithin k := by
  obtain ⟨n, t, hn, hrun, hidle⟩ := h
  exact ⟨n, t, hn.trans hjk, hrun, hidle⟩

theorem of_microStep (hm : microStep s = .next t) (h : t.EndsWithin k) : s.EndsWithin (k + 1) := by
  obtain ⟨n, u, hn, hrun, hidle⟩ := h
  exact ⟨n + 1, u, Nat.succ_le_succ hn, (takeTurns_sync hm _).trans hrun, hidle⟩

end State.EndsWithin

/-- Candidates left, matches left, and M-final bound the scan: a candidate that does not match costs one micro-step,
and one that matches costs two and skips 24 candidates (R140). -/
theorem endsWithin_scan {s : State} {p : Nat} {last : Option Nat} (hc : s.app ≤ s.cap) (hr : s.ready = true)
    (hp : s.phase = .scan p last) :
    s.EndsWithin ((s.app - p - 24) + (greedyAt (isFrameAt s.buf) s.app p).length + 1) := by
  generalize hn : s.app = stop at hc ⊢
  induction p using scan_induction stop generalizing s last with
  | done p h =>
    subst hn
    have hm := microStep_scan hp hc
    rw [scanStep_done last h] at hm
    exact (State.EndsWithin.of_microStep hm (.of_idle (State.finalize_phase s last))).mono (by omega)
  | next p h ih1 ih25 =>
    subst hn
    have hm := microStep_scan hp hc
    have h25 : p + 25 ≤ s.app := h
    cases ht : isFrameAt s.buf p with
    | false =>
      rw [scanStep_mismatch last h ht] at hm
      have hrest := ih1 (s := { s with phase := .scan (p + 1) last }) hr rfl rfl hc
      rw [greedyAt_mismatch h ht]
      exact (State.EndsWithin.of_microStep hm hrest).mono (by dsimp only; omega)
    | true =>
      rw [scanStep_match last h ht] at hm
      have hemit := microStep_emit_ready (State.countAt_phase s p last) hr
      have hrest := ih25 (s := (s.countAt p last).deliver p (recordAt s.buf p)) hr rfl rfl hc
      rw [greedyAt_match h ht, List.length_cons]
      exact (State.EndsWithin.of_microStep hm (.of_microStep hemit hrest)).mono
        (by simp only [frameSize, State.deliver_buf, State.countAt_buf]; omega)

/-- Settles O46: the greedy scan of the statement is `greedyAt`. -/
theorem scanEndsInBoundedMicroSteps : Obligations.ScanEndsInBoundedMicroSteps := fun _ _ _ => endsWithin_scan

end Sys2Proof.Machine
end
